-- ==== Sys2Proof/Word.lean ====
section
/-! DEFINITION. The word types of the FDC and the largest 64-bit value (00_scope.md section 6.1, R4). -/

namespace Sys2Proof

/-- A 64-bit value: divisor, dividend, quotient, remainder, magic constant, DerivedDivisorForm
(R4: `W` = 64). All values are unsigned. -/
abbrev Word := BitVec 64

/-- A command word (R4: `CMDW` = 32). -/
abbrev CmdWord := BitVec 32

/-- `MAX64` = 2^64 − 1 (00_scope.md section 6.1). -/
def max64 : Word := 0xFFFFFFFFFFFFFFFF#64

/-- The capability variant: full (quotient and remainder) or lean (quotient only) (R1, R22). -/
inductive Variant where
  | full
  | lean
  deriving DecidableEq, Repr

/-- A 1-bit carry or borrow zero-extended to 64 bits (`zext_N` of 00_scope.md section 6.2). -/
def bitWord (b : Bool) : Word := if b then 1#64 else 0#64

end Sys2Proof
end

