-- ==== Sys2Proof/Config.lean ====
section
/-! DEFINITION. The implementation parameters of 00_scope.md R4 that are fixed or bounded.
NSLOTS itself is open: it is the length of the slot array in State (log 1). `LAT_<op>` has no value and
nothing depends on it (R169); the model has no time (log 11). No free value is needed: the one undefined
behaviour of this hardware is a fault by the spec's own word (R146, log 3). -/

namespace Sys2Proof.Config

/-- `ROUNDS`: Newton-Raphson rounds in the solver (R4, R77). -/
def rounds : Nat := 5

/-- `NFIX`: fix-up steps after the last round (R4, R78). -/
def nfix : Nat := 2

/-- `SLOTW`: width in bits of the slot field (R4, R52). -/
def slotBits : Nat := 4

/-- The largest NSLOTS a FDC may have (R4: 1 ≤ NSLOTS ≤ 16). -/
def maxSlots : Nat := 16

/-- NSLOTS where a concrete value is needed (R4: "default 4 where a concrete value is needed").
DESIGN CHOICE for State.reset, log 1. -/
def defaultSlots : Nat := 4

end Sys2Proof.Config
end

