-- ==== Sys2Proof/Syntax.lean ====
section
/-! DEFINITION. The command set of 30_encoding.md R56 as one inductive, one constructor per row of the
command table, with the mnemonics and the assembler names of R62. The operands N and D are not part of a
command: they travel beside the word on `cmd_opa` and `cmd_opb` (R57). -/

namespace Sys2Proof

/-- The eleven commands (R56). A slot command carries its slot index, a number of the `SLOT` field (R53). -/
inductive Instr where
  /-- `CONSTRUCT.F s` (R101). -/
  | constructF (slot : Nat)
  /-- `CONSTRUCT.L s` (R133). -/
  | constructL (slot : Nat)
  /-- `RELEASE s` (R102). -/
  | release (slot : Nat)
  /-- `GETDIV s` (R103). -/
  | getdiv (slot : Nat)
  /-- `DIV s` (R104). -/
  | div (slot : Nat)
  /-- `MOD s` (R105). -/
  | mod (slot : Nat)
  /-- `DIVMOD s` (R106). -/
  | divmod (slot : Nat)
  /-- `DIV1.F` (R121). -/
  | div1F
  /-- `DIV1.L` (R134). -/
  | div1L
  /-- `MOD1` (R122). -/
  | mod1
  /-- `DIVMOD1` (R123). -/
  | divmod1
  deriving DecidableEq, Repr

/-- The eleven mnemonics of the command table (R56). -/
inductive Mnemonic where
  | constructF | constructL | release | getdiv | div | mod | divmod
  | div1F | div1L | mod1 | divmod1
  deriving DecidableEq, Repr

/-- A name an assembler line may begin with: a mnemonic, or one of the two pseudo-commands (R62). -/
inductive AsmName where
  /-- A mnemonic of the command table. -/
  | plain (m : Mnemonic)
  /-- `LDIV1 n, d`: another name of `DIV1.L n, d`. -/
  | ldiv1
  /-- `CONSTRUCT s, d` without a suffix: another name of `CONSTRUCT.F s, d`. -/
  | construct
  deriving DecidableEq, Repr

/-- The mnemonic's spelling (R56, R62: capitals, with the `.F` or `.L` suffix). -/
def Mnemonic.text : Mnemonic → String
  | .constructF => "CONSTRUCT.F"
  | .constructL => "CONSTRUCT.L"
  | .release => "RELEASE"
  | .getdiv => "GETDIV"
  | .div => "DIV"
  | .mod => "MOD"
  | .divmod => "DIVMOD"
  | .div1F => "DIV1.F"
  | .div1L => "DIV1.L"
  | .mod1 => "MOD1"
  | .divmod1 => "DIVMOD1"

/-- The row of the command table a command belongs to. -/
def Instr.mnemonic : Instr → Mnemonic
  | .constructF _ => .constructF
  | .constructL _ => .constructL
  | .release _ => .release
  | .getdiv _ => .getdiv
  | .div _ => .div
  | .mod _ => .mod
  | .divmod _ => .divmod
  | .div1F => .div1F
  | .div1L => .div1L
  | .mod1 => .mod1
  | .divmod1 => .divmod1

/-- The slot operand of a slot command; a one-shot command has none (R33, R53). -/
def Instr.slot? : Instr → Option Nat
  | .constructF i | .constructL i | .release i | .getdiv i | .div i | .mod i | .divmod i => some i
  | .div1F | .div1L | .mod1 | .divmod1 => none

/-- What a pseudo-command stands for: a pure renaming (R62). -/
def AsmName.expand : AsmName → Mnemonic
  | .plain m => m
  | .ldiv1 => .div1L
  | .construct => .constructF

end Sys2Proof
end

