-- ==== Sys2Proof/WellFormed.lean ====
section
/-! DEFINITION. When a command can be written as a command word: its slot index fits the 4-bit `SLOT` field
(30_encoding.md R52, R53). Whether the slot exists (SLOT < NSLOTS) is no part of this: that is the slot
command's own check (R59, R100). -/

namespace Sys2Proof

/-- A slot index fits the `SLOT` field (R52: 4 bits). -/
abbrev slotFits (slot : Nat) : Prop := slot < 2 ^ Config.slotBits

/-- Whether a command can be written as a word (R52, R53): the slot index of a slot command fits its field. -/
def Instr.wellFormed : Instr → Bool
  | .constructF slot => decide (slotFits slot)
  | .constructL slot => decide (slotFits slot)
  | .release slot => decide (slotFits slot)
  | .getdiv slot => decide (slotFits slot)
  | .div slot => decide (slotFits slot)
  | .mod slot => decide (slotFits slot)
  | .divmod slot => decide (slotFits slot)
  | .div1F => true
  | .div1L => true
  | .mod1 => true
  | .divmod1 => true

/-- A well-formed command. -/
abbrev Instr.WellFormed (i : Instr) : Prop := i.wellFormed = true

end Sys2Proof
end

