-- ==== Sys2Proof/Decode.lean ====
section
/-! DEFINITION. The command word (30_encoding.md sections 2 to 5), its decoder, its encoder, the
match/mask table of R56, and the assembler lines of R62. -/

namespace Sys2Proof

/-! ### Fields of the command word (R52) -/

/-- `w[hi:lo]` as a number (00_scope.md section 6.1). -/
def bits (w : CmdWord) (hi lo : Nat) : Nat := w.toNat / 2 ^ lo % 2 ^ (hi + 1 - lo)

/-- `RSV1` = bits 31:12, must be 0. -/
def rsv1Of (w : CmdWord) : Nat := bits w 31 12

/-- `SLOT` = bits 11:8. -/
def slotOf (w : CmdWord) : Nat := bits w 11 8

/-- `RSV0` = bits 7:5, must be 0. -/
def rsv0Of (w : CmdWord) : Nat := bits w 7 5

/-- `VAR` = bit 4. -/
def varOf (w : CmdWord) : Nat := bits w 4 4

/-- `OP` = bits 3:0. -/
def opOf (w : CmdWord) : Nat := bits w 3 0

/-! ### Decoding (R58, R59) -/

/-- Why a word is illegal: the five conditions of R58. All of them answer `E_ILLEGAL`; which one is named
when several hold is not observable (log 17). -/
inductive IllegalWord where
  /-- `RSV1` ≠ 0. -/
  | rsv1NotZero
  /-- `RSV0` ≠ 0. -/
  | rsv0NotZero
  /-- `OP` is one of 0, 7, 11 to 15. -/
  | reservedOp
  /-- `VAR` = 1 in a command without a variant choice. -/
  | varNotAllowed
  /-- `SLOT` ≠ 0 in a one-shot command. -/
  | slotNotAllowed
  deriving DecidableEq, Repr

/-- The result of decoding: a command, or illegal with the reason's name (R59). -/
inductive Decoded where
  | command (i : Instr)
  | illegal (why : IllegalWord)
  deriving DecidableEq, Repr

/-- The reserved values of `OP` (R54). -/
def reservedOps : List Nat := [0, 7, 11, 12, 13, 14, 15]

/-- The values of `OP` whose commands have no variant choice (R55, R58). -/
def fixedVariantOps : List Nat := [2, 3, 4, 5, 6, 9, 10]

/-- The values of `OP` of the one-shot commands (R53, R54). -/
def oneShotOps : List Nat := [8, 9, 10]

/-- The first condition of R58 that holds of the word, in the order the rule lists them. -/
def illegalReason (w : CmdWord) : Option IllegalWord :=
  if rsv1Of w ≠ 0 then some .rsv1NotZero
  else if rsv0Of w ≠ 0 then some .rsv0NotZero
  else if opOf w ∈ reservedOps then some .reservedOp
  else if opOf w ∈ fixedVariantOps ∧ varOf w = 1 then some .varNotAllowed
  else if opOf w ∈ oneShotOps ∧ slotOf w ≠ 0 then some .slotNotAllowed
  else none

/-- The row that `OP` and `VAR` select (R54, R55, R56); no other pair is a row. -/
def selectRow (op var slot : Nat) : Decoded :=
  match op, var with
  | 1, 0 => .command (.constructF slot)
  | 1, 1 => .command (.constructL slot)
  | 2, 0 => .command (.release slot)
  | 3, 0 => .command (.getdiv slot)
  | 4, 0 => .command (.div slot)
  | 5, 0 => .command (.mod slot)
  | 6, 0 => .command (.divmod slot)
  | 8, 0 => .command .div1F
  | 8, 1 => .command .div1L
  | 9, 0 => .command .mod1
  | 10, 0 => .command .divmod1
  | _, _ => .illegal .reservedOp

/-- Decoding is a total function of the word (R59): illegal words first, then the row.
The range of `SLOT` against NSLOTS is not part of decoding. -/
def decode (w : CmdWord) : Decoded :=
  match illegalReason w with
  | some why => .illegal why
  | none => selectRow (opOf w) (varOf w) (slotOf w)

/-! ### Encoding (R52, R56) -/

/-- A word from its `SLOT`, `VAR` and `OP` fields, the reserved fields 0 (R52). -/
def packWord (slot var op : Nat) : CmdWord := BitVec.ofNat 32 (op + 2 ^ 4 * var + 2 ^ 8 * slot)

/-- The command word of a command (R56: `match | (s << 8)`). -/
def encode : Instr → CmdWord
  | .constructF slot => packWord slot 0 1
  | .constructL slot => packWord slot 1 1
  | .release slot => packWord slot 0 2
  | .getdiv slot => packWord slot 0 3
  | .div slot => packWord slot 0 4
  | .mod slot => packWord slot 0 5
  | .divmod slot => packWord slot 0 6
  | .div1F => packWord 0 0 8
  | .div1L => packWord 0 1 8
  | .mod1 => packWord 0 0 9
  | .divmod1 => packWord 0 0 10

/-! ### The match/mask table (R56) -/

/-- One row of the command table: a word w selects it when `w & mask = pattern`; `build` makes the command
from the `SLOT` field. -/
structure Row where
  mask : CmdWord
  pattern : CmdWord
  build : Nat → Instr

/-- A row selects a word (R56). -/
def Row.selects (r : Row) (w : CmdWord) : Prop := w &&& r.mask = r.pattern

/-- The command table of R56. -/
def commandTable : List Row :=
  [ ⟨0xFFFFF0FF#32, 0x00000001#32, .constructF⟩,
    ⟨0xFFFFF0FF#32, 0x00000011#32, .constructL⟩,
    ⟨0xFFFFF0FF#32, 0x00000002#32, .release⟩,
    ⟨0xFFFFF0FF#32, 0x00000003#32, .getdiv⟩,
    ⟨0xFFFFF0FF#32, 0x00000004#32, .div⟩,
    ⟨0xFFFFF0FF#32, 0x00000005#32, .mod⟩,
    ⟨0xFFFFF0FF#32, 0x00000006#32, .divmod⟩,
    ⟨0xFFFFFFFF#32, 0x00000008#32, fun _ => .div1F⟩,
    ⟨0xFFFFFFFF#32, 0x00000018#32, fun _ => .div1L⟩,
    ⟨0xFFFFFFFF#32, 0x00000009#32, fun _ => .mod1⟩,
    ⟨0xFFFFFFFF#32, 0x0000000A#32, fun _ => .divmod1⟩ ]

/-- Every legal command: the seven slot commands at every slot index of the field, and the four one-shot
commands (R58: 7·16 + 4 = 116). -/
def legalCommands : List Instr :=
  (List.range 16).flatMap (fun i =>
    [.constructF i, .constructL i, .release i, .getdiv i, .div i, .mod i, .divmod i])
  ++ [.div1F, .div1L, .mod1, .divmod1]

/-! ### Assembler lines (R62) -/

/-- What an assembler line stands for: the word, and the operands the command uses (an unused operand is
absent: any value may be present beside the word, R57). -/
structure CommandLine where
  word : CmdWord
  opa : Option Word
  opb : Option Word
  deriving DecidableEq, Repr

/-- An operand number that is a 64-bit value. -/
def operandWord (n : Nat) : Option Word := if n < 2 ^ 64 then some (BitVec.ofNat 64 n) else none

/-- A slot command with no operand. -/
def bareLine (i : Instr) : Option CommandLine :=
  if i.wellFormed then some ⟨encode i, none, none⟩ else none

/-- A slot command with one operand, in OPA. -/
def opaLine (i : Instr) (a : Nat) : Option CommandLine :=
  match i.wellFormed, operandWord a with
  | true, some x => some ⟨encode i, some x, none⟩
  | _, _ => none

/-- A one-shot command with its two operands, OPA then OPB. -/
def pairLine (i : Instr) (a b : Nat) : Option CommandLine :=
  match operandWord a, operandWord b with
  | some x, some y => some ⟨encode i, some x, some y⟩
  | _, _ => none

/-- `MNEMONIC [slot][, opa][, opb]`: the slot of a slot command as a number 0 to 15, then the operands the
command uses, in the order OPA, OPB (R62). A line with other arguments is no line. -/
def assemble (name : AsmName) (args : List Nat) : Option CommandLine :=
  match name.expand, args with
  | .constructF, [slot, d] => opaLine (.constructF slot) d
  | .constructL, [slot, d] => opaLine (.constructL slot) d
  | .release, [slot] => bareLine (.release slot)
  | .getdiv, [slot] => bareLine (.getdiv slot)
  | .div, [slot, n] => opaLine (.div slot) n
  | .mod, [slot, n] => opaLine (.mod slot) n
  | .divmod, [slot, n] => opaLine (.divmod slot) n
  | .div1F, [n, d] => pairLine .div1F n d
  | .div1L, [n, d] => pairLine .div1L n d
  | .mod1, [n, d] => pairLine .mod1 n d
  | .divmod1, [n, d] => pairLine .divmod1 n d
  | _, _ => none

/-! ### The host's way in -/

/-- The command of a word of `nbits` bits, every bit above them 0. Every command is one 32-bit word (R52);
the FDC has no byte order, since no value is ever split into bytes (R41). -/
def decodeTableWord (nbits w : Nat) : Option Instr :=
  match decode (BitVec.ofNat 32 (w % 2 ^ nbits)) with
  | .command i => some i
  | .illegal _ => none

end Sys2Proof
end

