-- ==== Sys2Proof/Machine/State.lean ====
section
/-! DEFINITION. The state of the FDC (10_state.md), the response (30_encoding.md R60, R61), the pins the host
drives (R50, R51), the reasons a step can stop, and the reset state (R31, R160). -/

namespace Sys2Proof.Machine

/-- The contents of one Constructed slot: FD's PrecomputedDivider with its variant tag (R20, R22, R23, R24). -/
structure Divider where
  /-- `slot[i].var`: 0 full, 1 lean (R22). -/
  var : Variant
  /-- `slot[i].ddf`: the divisor, or its negation in a lean slot (R24). -/
  ddf : Word
  /-- `slot[i].magic`: the magic constant (R23). -/
  magic : Word
  deriving DecidableEq, Repr

/-- One slot (R20). `valid` is which constructor it is (R21). While `valid` = 0 the fields `var`, `ddf` and
`magic` have no value (R31: "A model holds them as no value while valid = 0"; R32, U3, log 2). From an undefined
command until the next reset the whole slot, `valid` included, has no value (60_exceptions.md R146, U1, log 3). -/
inductive Slot where
  /-- `valid` = 0: Uninitialized. -/
  | uninitialized
  /-- `valid` = 1: Constructed. -/
  | constructed (d : Divider)
  /-- No value: an undefined command was accepted and no reset has come since (R146). -/
  | noValue
  deriving DecidableEq, Repr

/-- `slot[i].valid` (R21). -/
def Slot.valid : Slot → Option Bool
  | .uninitialized => some false
  | .constructed _ => some true
  | .noValue => none

/-- The response statuses; the codes 6 and 7 are never produced (R61, U7). -/
inductive Status where
  | ok
  | eIllegal
  | eRange
  | eUninit
  | eBusy
  | eNomod
  deriving DecidableEq, Repr

/-- A response (R60). A result field that is not driven is absent (U2, log 10). -/
structure Response where
  status : Status
  res0 : Option Word
  res1 : Option Word
  deriving DecidableEq, Repr

/-- What the host drives on the FDC's inputs at one moment (R50, R51). -/
structure HostPins where
  /-- `rst` (R160). -/
  rst : Bool
  /-- `cmd_valid`. -/
  cmdValid : Bool
  /-- `cmd_word`. -/
  cmdWord : CmdWord
  /-- `cmd_opa`. -/
  cmdOpa : Word
  /-- `cmd_opb`. -/
  cmdOpb : Word
  /-- `rsp_ready`. -/
  rspReady : Bool
  deriving DecidableEq, Repr

/-- Why a command has no effect that the spec gives, and what the FDC records of it. -/
inductive Fault where
  /-- A command whose divisor operand is 0 and which passed every check: CONSTRUCT.F, CONSTRUCT.L (`OPA`),
  DIV1.F, DIV1.L, MOD1, DIVMOD1 (`OPB`). R146 calls it undefined and asks a model for a recorded fault that no later
  command clears; only reset does (U1). Also answered by exec for a slot command whose slot has no value since such
  a command. Safe: no claim can be proved about a stream that contains it, up to the next reset (log 3). -/
  | divisorZero
  deriving DecidableEq, Repr

/-- The whole state. `slots` is the architectural state (R20), its length is NSLOTS (log 1). `rsp` is the one
hidden condition of R30: the response of the command in flight, until the host takes it (R50, R51). `fault` is the
recorded fault of R146, none from reset on until an undefined command is accepted (U1, log 3). `pins` and `script`
are the host's side of the interface, now and at later moments (log 6). -/
structure State where
  slots : List Slot
  rsp : Option Response
  fault : Option Fault
  pins : HostPins
  script : List HostPins
  deriving DecidableEq, Repr

/-- Why an instruction has no meaning. -/
inductive Refusal where
  /-- Raised by exec's arm of an instruction that has no meaning yet; this model has no such arm. Safe. -/
  | notModelled (mnemonic : String)
  deriving DecidableEq, Repr

/-- A host that drives nothing: no reset, no command, no readiness. The data pins carry 0, which nothing
samples while `cmd_valid` is 0 (DESIGN CHOICE, log 7). -/
def HostPins.idle : HostPins :=
  { rst := false, cmdValid := false, cmdWord := 0#32, cmdOpa := 0#64, cmdOpb := 0#64, rspReady := false }

/-- The reset state of a FDC with `nslots` slots: every slot Uninitialized, no command in flight (R31, R160), no
fault recorded (U1), and a host that drives nothing (log 7). -/
def State.resetFor (nslots : Nat) : State :=
  { slots := List.replicate nslots .uninitialized, rsp := none, fault := none, pins := .idle, script := [] }

/-- The machine right after reset (R31, R160), with the spec's default NSLOTS (R4, log 1). -/
def State.reset : State := State.resetFor Config.defaultSlots

end Sys2Proof.Machine
end

