-- ==== Sys2Proof/Machine/Operands.lean ====
section
/-! DEFINITION. Operand assignment (30_encoding.md R57): which port carries the dividend and which the divisor
of each command, and reading a port. -/

namespace Sys2Proof.Machine

/-- The two operand ports (R50, R57). -/
inductive OperandPort where
  | opa
  | opb
  deriving DecidableEq, Repr

/-- The value on a port at the moment a command is accepted, a whole 64-bit value with no extension, scaling or
shifting (R50, R57). -/
def State.operand (s : State) : OperandPort → Word
  | .opa => s.pins.cmdOpa
  | .opb => s.pins.cmdOpb

/-- The port of the divisor D: OPA for CONSTRUCT, OPB for the one-shot commands (R57). -/
def divisorPort : Instr → Option OperandPort
  | .constructF _ | .constructL _ => some .opa
  | .div1F | .div1L | .mod1 | .divmod1 => some .opb
  | .release _ | .getdiv _ | .div _ | .mod _ | .divmod _ => none

/-- The port of the dividend N: always OPA (R57). -/
def dividendPort : Instr → Option OperandPort
  | .div _ | .mod _ | .divmod _ | .div1F | .div1L | .mod1 | .divmod1 => some .opa
  | .constructF _ | .constructL _ | .release _ | .getdiv _ => none

/-- A command uses a port; an operand it does not use is ignored (R57). -/
def usesPort (i : Instr) (p : OperandPort) : Prop := divisorPort i = some p ∨ dividendPort i = some p

/-- The state with other values on the operand ports. -/
def State.withOperands (s : State) (a b : Word) : State :=
  { s with pins := { s.pins with cmdOpa := a, cmdOpb := b } }

end Sys2Proof.Machine
end

