-- ==== Sys2Proof/Machine/Ops.lean ====
section
/-! DEFINITION. The named operations over the slot array and the response channel: reading and writing a slot
(20_memory.md R40, R43), answering (30_encoding.md R60), RAISING AN ERROR STATUS as one operation
(60_exceptions.md R142), the checks of the common preamble (42_divider_commands.md R100), the undefined divisor 0
and the recording of its fault (60_exceptions.md R146), and the reset event (70_reset_and_hazards.md R160, R161).
The FDC has no trap entry and no trap return (R149, R151): `raise` is all there is, and the next command is simply
accepted. -/

namespace Sys2Proof.Machine

/-- The result type of a meaning. -/
abbrev Result := Host.Outcome State Fault Refusal

/-- NSLOTS (R20, log 1). -/
def State.nslots (s : State) : Nat := s.slots.length

/-- Slot `i`, none when it is out of range (R33, R44). -/
def State.slotAt (s : State) (i : Nat) : Option Slot := s.slots[i]?

/-- Write slot `i`: its four fields together (R43). -/
def State.setSlot (s : State) (i : Nat) (x : Slot) : State := { s with slots := s.slots.set i x }

/-- Offer a response. -/
def State.offer (s : State) (r : Response) : State := { s with rsp := some r }

/-- End a command with status OK and the given result fields; an absent one is not driven (R60). -/
def respond (res0 res1 : Option Word) (s : State) : Result := .next (s.offer ⟨.ok, res0, res1⟩)

/-- Raise an error status (R142): the response carries the code alone, no slot changes, and the FDC is ready for
the next command in the state before the failed one. -/
def raise (e : Status) (s : State) : Result := .next (s.offer ⟨e, none, none⟩)

/-! ### The common preamble (R100)

A check answers what it found, or the outcome that ends the command. A slot without a value ends it with the fault
it has no value because of: step runs no command there (R146, log 3). -/

/-- The checks of CONSTRUCT: in range, else `E_RANGE`; Uninitialized, else `E_BUSY`. -/
def checkFree (i : Nat) (s : State) : Except Result Unit :=
  match s.slotAt i with
  | none => .error (raise .eRange s)
  | some (.constructed _) => .error (raise .eBusy s)
  | some .uninitialized => .ok ()
  | some .noValue => .error (.fault .divisorZero)

/-- The checks of the other slot commands: in range, else `E_RANGE`; Constructed, else `E_UNINIT`. -/
def checkDivider (i : Nat) (s : State) : Except Result Divider :=
  match s.slotAt i with
  | none => .error (raise .eRange s)
  | some .uninitialized => .error (raise .eUninit s)
  | some (.constructed d) => .ok d
  | some .noValue => .error (.fault .divisorZero)

/-- The checks of MOD and DIVMOD: those of the others, then a full-variant slot, else `E_NOMOD`. -/
def checkFullDivider (i : Nat) (s : State) : Except Result Divider :=
  match checkDivider i s with
  | .error o => .error o
  | .ok d =>
    match d.var with
    | .full => .ok d
    | .lean => .error (raise .eNomod s)

/-- Run a body on what the preamble found, or end as it ended. -/
def afterChecks {α : Type} (checked : Except Result α) (body : α → Result) : Result :=
  match checked with
  | .error o => o
  | .ok x => body x

/-! ### The undefined command (R146) -/

/-- A divisor of 0 is undefined: the command has no next state of its own (R146, log 3). The FDC itself has no such
check. -/
def unlessDivisorZero (d : Word) (body : Result) : Result :=
  if d = 0#64 then .fault .divisorZero else body

/-- Record a fault: from here to the next reset no slot and no response has a value (R146, U1, log 3). -/
def State.recordFault (s : State) (f : Fault) : State :=
  { s with slots := s.slots.map (fun _ => .noValue), rsp := none, fault := some f }

/-- What accepting a command leads to: an undefined one goes on, with its fault recorded in the state it was
accepted in. -/
def recordingFault (s : State) : Result → Result
  | .next t => .next t
  | .fault f => .next (s.recordFault f)
  | .refused r => .refused r

/-! ### Reset (R160, R161) -/

/-- The reset event: every slot Uninitialized, a command in flight abandoned with its response, a recorded fault
cleared (U1). -/
def State.applyReset (s : State) : State :=
  { s with slots := s.slots.map (fun _ => .uninitialized), rsp := none, fault := none }

/-- The next state of an outcome, for tests and statements. -/
def nextState? : Result → Option State
  | .next s => some s
  | .fault _ => none
  | .refused _ => none

/-- The fault of an outcome. -/
def faultOf? : Result → Option Fault
  | .next _ => none
  | .fault f => some f
  | .refused _ => none

end Sys2Proof.Machine
end

