-- ==== Sys2Proof/Machine/Channel.lean ====
section
/-! DEFINITION. The command and response channels and `rst` (30_encoding.md R50, R51, R60, R61;
70_reset_and_hazards.md R160, R165): the FDC's outputs, what is transferred at a moment, and the host's move
from one moment to the next (log 6). -/

namespace Sys2Proof.Machine

/-! ### The FDC's outputs -/

/-- A handshake output: 0 in reset (R160); nothing is promised of it while a fault is recorded, so it has no value
(R146); else the value given. -/
def State.handshake (s : State) (v : Bool) : Option Bool :=
  if s.pins.rst then some false
  else match s.fault with
    | some _ => none
    | none => some v

/-- `cmd_ready`: no command in flight and no reset (R50, R160). -/
def State.cmdReady (s : State) : Option Bool := s.handshake s.rsp.isNone

/-- `rsp_valid`: a response is offered and there is no reset (R51, R160). -/
def State.rspValid (s : State) : Option Bool := s.handshake s.rsp.isSome

/-- The response offered at this moment, if any. -/
def State.offered (s : State) : Option Response := if s.rspValid = some true then s.rsp else none

/-- The 3-bit code of a status (R61). -/
def Status.code : Status → BitVec 3
  | .ok => 0#3
  | .eIllegal => 1#3
  | .eRange => 2#3
  | .eUninit => 3#3
  | .eBusy => 4#3
  | .eNomod => 5#3

/-- `rsp_status` while a response is offered: always driven (R60). -/
def State.rspStatus (s : State) : Option (BitVec 3) := s.offered.map (fun r => r.status.code)

/-- `rsp_res0` while a response is offered and drives it (R60). -/
def State.rspRes0 (s : State) : Option Word := s.offered.bind (·.res0)

/-- `rsp_res1` while a response is offered and drives it (R60). -/
def State.rspRes1 (s : State) : Option Word := s.offered.bind (·.res1)

/-! ### What a moment transfers -/

/-- What happens at the moment the pins describe. -/
inductive Moment where
  /-- `rst` is asserted (R160). -/
  | inReset
  /-- A fault is recorded: nothing is promised about this moment (R146, log 3). -/
  | undefined
  /-- `rsp_valid` and `rsp_ready` are both 1: the response is taken (R51). -/
  | responseTaken
  /-- `cmd_valid` and `cmd_ready` are both 1: the command word is accepted (R50). -/
  | accepted (w : CmdWord)
  /-- Nothing is transferred. A command presented while `cmd_ready` is 0 has no effect (R50, log 14). -/
  | nothing
  deriving DecidableEq, Repr

/-- The transfer of this moment. At most one: from acceptance until the response has been taken `cmd_ready`
is 0 (R50, log 6). -/
def State.moment (s : State) : Moment :=
  if s.pins.rst then .inReset
  else if s.fault.isSome then .undefined
  else if s.rspValid = some true ∧ s.pins.rspReady = true then .responseTaken
  else if s.cmdReady = some true ∧ s.pins.cmdValid = true then .accepted s.pins.cmdWord
  else .nothing

/-- The response has been taken: none of it is held (R29, R51). -/
def State.dropResponse (s : State) : State := { s with rsp := none }

/-- An illegal word is accepted like any other, changes no slot, ignores its operands, and is answered
`E_ILLEGAL` (R58, R140). -/
def answerIllegal (_why : IllegalWord) (s : State) : Result := raise .eIllegal s

/-! ### The host's next moment -/

/-- The host that has nothing more to say: no reset, no command, no readiness; its data pins keep their
values, which nothing samples (log 13). -/
def HostPins.quiet (p : HostPins) : HostPins := { p with rst := false, cmdValid := false, rspReady := false }

/-- The host moves on to the next moment of its script. -/
def State.hostMoves (s : State) : State :=
  match s.script with
  | [] => { s with pins := s.pins.quiet }
  | p :: later => { s with pins := p, script := later }

/-- The host moves on after a step that goes on. -/
def afterMoment : Result → Result
  | .next s => .next s.hostMoves
  | .fault f => .fault f
  | .refused r => .refused r

/-! ### Presenting a word (the host's interface, log 8) -/

/-- A divisor that keeps the host's duty of R166: 1 in place of 0. -/
def dutifulDivisor (d : Word) : Word := if d = 0#64 then 1#64 else d

/-- The pins of a host that presents a word, with the operands already on the pins, but that the operand which
is a decoded command's divisor is not 0 (R166, log 8). -/
def HostPins.present (p : HostPins) (w : CmdWord) : HostPins :=
  let q := { p with rst := false, cmdValid := true, cmdWord := w }
  match decode w with
  | .illegal _ => q
  | .command i =>
    match divisorPort i with
    | none => q
    | some .opa => { q with cmdOpa := dutifulDivisor q.cmdOpa }
    | some .opb => { q with cmdOpb := dutifulDivisor q.cmdOpb }

end Sys2Proof.Machine
end

