-- ==== Sys2Proof/Machine/Arith.lean ====
section
/-! DEFINITION. The arithmetic primitives of 00_scope.md R5 to R10 that leave no carry, each computed on exact
integers and narrowed at the end, and the four-product construction of R7. -/

namespace Sys2Proof.Machine

/-- Low half of the product (R5). -/
def mullo (a b : Word) : Word := BitVec.ofNat 64 (a.toNat * b.toNat)

/-- High half of the 128-bit product (R6). -/
def mulhi (a b : Word) : Word := BitVec.ofNat 64 (a.toNat * b.toNat / 2 ^ 64)

/-- Two's-complement negation, `neg64(0) = 0` (R8). -/
def neg64 (a : Word) : Word := BitVec.ofNat 64 (2 ^ 64 - a.toNat)

/-- Leading-zero count of a nonzero value (R9: 63 − ⌊log2 a⌋). The value at 0 is not defined by the spec and
nothing uses it (U5, log 5). -/
def clz64 (a : Word) : Nat := 63 - Nat.log2 a.toNat

/-- Left shift, count 0 to 63 (R10). -/
def shl64 (a : Word) (k : Nat) : Word := BitVec.ofNat 64 (a.toNat * 2 ^ k)

/-- Right shift, count 0 to 63 (R10). -/
def shr64 (a : Word) (k : Nat) : Word := BitVec.ofNat 64 (a.toNat / 2 ^ k)

/-! ### The four-partial-product multiply (R7) -/

/-- Low 32 bits, `v[31:0]`. -/
def low32 (n : Nat) : Nat := n % 2 ^ 32

/-- The bits from 32 up, `v[63:32]` of a value below 2^64. -/
def high32 (n : Nat) : Nat := n / 2 ^ 32

/-- The middle column `mid = ll[63:32] + lh[31:0] + hl[31:0]` (R7). -/
def midColumn (a b : Word) : Nat :=
  high32 (low32 a.toNat * low32 b.toNat) + low32 (low32 a.toNat * high32 b.toNat)
    + low32 (high32 a.toNat * low32 b.toNat)

/-- `mulhi` summed from four 32×32→64 partial products (R7). -/
def mulhiFromParts (a b : Word) : Word :=
  BitVec.ofNat 64
    (high32 a.toNat * high32 b.toNat + high32 (low32 a.toNat * high32 b.toNat)
      + high32 (high32 a.toNat * low32 b.toNat) + high32 (midColumn a b))

/-- `mullo = {mid[31:0], ll[31:0]}` (R7). -/
def mulloFromParts (a b : Word) : Word :=
  BitVec.ofNat 64 (low32 (midColumn a b) * 2 ^ 32 + low32 (low32 a.toNat * low32 b.toNat))

end Sys2Proof.Machine
end

