-- ==== Sys2Proof/Machine/Flags.lean ====
section
/-! DEFINITION. The carry and borrow computations (00_scope.md R8). The bits live inside one command only: the
FDC has no flag register (10_state.md R28). -/

namespace Sys2Proof.Machine

/-- Sum modulo 2^64, and the carry: true exactly when a + b ≥ 2^64 (R8). -/
def add64 (a b : Word) : Word × Bool :=
  (BitVec.ofNat 64 (a.toNat + b.toNat), decide (2 ^ 64 ≤ a.toNat + b.toNat))

/-- Difference modulo 2^64, and the borrow: true exactly when a < b (R8). -/
def sub64 (a b : Word) : Word × Bool :=
  (BitVec.ofNat 64 (2 ^ 64 + a.toNat - b.toNat), decide (a.toNat < b.toNat))

end Sys2Proof.Machine
end

