-- ==== Sys2Proof/Machine/Applicator.lean ====
section
/-! DEFINITION. The Division/Modulo Applicator: the quotient estimate (41_applicator.md R91), the full-variant
sequence (R92, R93) and the lean one (44_lean_variant.md R132). -/

namespace Sys2Proof.Machine

/-- `q0 = mulhi(N, M)` (R91). -/
def estimate (n m : Word) : Word := mulhi n m

/-- The full variant's remainder candidate `r0 = (N − mullo(q0, D)) mod 2^64` (R92). -/
def candidateFull (n d m : Word) : Word := (sub64 n (mullo (estimate n m) d)).1

/-- The full-variant sequence (R92): the quotient takes the inverted borrow of the trial subtraction, the
remainder adds D back exactly when it borrowed. -/
def applyFull (n d m : Word) : Word × Word :=
  let q0 := estimate n m
  let trial := sub64 (candidateFull n d m) d
  ((sub64 (add64 q0 1#64).1 (bitWord trial.2)).1,
   (add64 trial.1 (if trial.2 then d else 0#64)).1)

/-- The lean variant's remainder candidate `r0 = (N + mullo(q0, nD)) mod 2^64` (R132). -/
def candidateLean (n nd m : Word) : Word := (add64 n (mullo (estimate n m) nd)).1

/-- The lean sequence (R132): the carry of adding the negated divisor goes into the quotient. -/
def applyLean (n nd m : Word) : Word :=
  (add64 (estimate n m) (bitWord (add64 (candidateLean n nd m) nd).2)).1

/-- `DivideF` (R93). -/
def divideF (n d m : Word) : Word := (applyFull n d m).1

/-- `ModuloF` (R93). -/
def moduloF (n d m : Word) : Word := (applyFull n d m).2

/-- `DivModF` (R93). -/
def divModF (n d m : Word) : Word × Word := applyFull n d m

end Sys2Proof.Machine
end

