-- ==== Sys2Proof/Machine/Solver.lean ====
section
/-! DEFINITION. The Reciprocal Magic Solver (40_solver.md, 44_lean_variant.md section 2): the closed form of
its output (R72), which `solve` is (R79, 92_eei_decisions.md D31, log 4), and the datapath of R73 to R78 beside
it, each variant with its own seed and its own fix-up. -/

namespace Sys2Proof.Machine

/-! ### The closed form -/

/-- `Magic(D) = min(⌊2^64 / D⌋, 2^64 − 1)` for D ≠ 0 (R72). At D = 0 the spec gives none and no command
reaches it (R71, log 5). -/
def magic (d : Word) : Word := BitVec.ofNat 64 (min (2 ^ 64 / d.toNat) (2 ^ 64 - 1))

/-- `Solve(v, D)` (R70): the closed form, the same for both variants (R79, R131, log 4). -/
def solve (_v : Variant) (d : Word) : Word := magic d

/-! ### The datapath -/

/-- `x0` of R74: the negated divisor shifted left by `L`; the full variant forces its bit 0. -/
def seedBits (v : Variant) (d : Word) : Word :=
  match v with
  | .full => shl64 (neg64 d) (clz64 d) ||| 1#64
  | .lean => shl64 (neg64 d) (clz64 d)

/-- `c0 = 2^L + shr64(shr64(x0, 1), 63 − L)` (R73, R74). -/
def seed (v : Variant) (d : Word) : Word :=
  (add64 (shl64 1#64 (clz64 d)) (shr64 (shr64 (seedBits v d) 1) (63 - clz64 d))).1

/-- The residual `E(c) = mullo(c, nD)` (R75). -/
def residualOf (d c : Word) : Word := mullo c (neg64 d)

/-- One refinement round `Round(c) = (c + mulhi(c, E(c))) mod 2^64` (R76). -/
def refineRound (d c : Word) : Word := (add64 c (mulhi c (residualOf d c))).1

/-- `n` rounds, one after another, with no convergence test and no early exit (R77). -/
def refine (d : Word) : Nat → Word → Word
  | 0, c => c
  | n + 1, c => refine d n (refineRound d c)

/-- The function one fix-up step computes: `c + 1` if `E(c) ≥ D` and `c ≠ MAX64`, else `c` (R78). -/
def fixStep (d c : Word) : Word :=
  if d.toNat ≤ (residualOf d c).toNat ∧ c ≠ max64 then (add64 c 1#64).1 else c

/-- The full variant's fix-up step: add 1, compare `E(c)` with D by the borrow of a subtraction, and subtract
the 1 again when it borrowed or when the add wrapped (R78). -/
def fixStepFull (d c : Word) : Word :=
  (sub64 (add64 c 1#64).1 (bitWord ((sub64 (residualOf d c) d).2 || (add64 c 1#64).2))).1

/-- The lean variant's fix-up step: the carry of `add64(E(c), nD)`, added with saturation at MAX64
(R78, R131). -/
def fixStepLean (d c : Word) : Word :=
  if c = max64 then c else (add64 c (bitWord (add64 (residualOf d c) (neg64 d)).2)).1

/-- The fix-up step as the variant realises it. -/
def fixStepOf (v : Variant) (d c : Word) : Word :=
  match v with
  | .full => fixStepFull d c
  | .lean => fixStepLean d c

/-- `n` fix-up steps, all of them always evaluated (R78). -/
def fixUp (v : Variant) (d : Word) : Nat → Word → Word
  | 0, c => c
  | n + 1, c => fixUp v d n (fixStepOf v d c)

/-- The candidate `c5` after the rounds (R77). -/
def refined (v : Variant) (d : Word) : Word := refine d Config.rounds (seed v d)

/-- The solver's datapath, R73 to R78: seed, exactly five rounds, two fix-up steps. -/
def solveDatapath (v : Variant) (d : Word) : Word := fixUp v d Config.nfix (refined v d)

end Sys2Proof.Machine
end

