-- ==== Sys2Proof/Machine/DividerCommands.lean ====
section
/-! DEFINITION. The Precomputing Divider commands (42_divider_commands.md R101 to R106) and the operations the
slot commands share. CONSTRUCT.L is in LeanVariant.lean. -/

namespace Sys2Proof.Machine

/-- The DerivedDivisorForm a variant stores: D, or its negation in the lean variant (R24). -/
def ddfOf (v : Variant) (d : Word) : Word :=
  match v with
  | .full => d
  | .lean => neg64 d

/-- The divider object a CONSTRUCT of the variant makes for a divisor (R101, R133). -/
def newDivider (v : Variant) (d : Word) : Divider := ⟨v, ddfOf v d, solve v d⟩

/-- The divisor of a divider: D's semantic value, never the stored form (R24, R103). -/
def Divider.divisor (d : Divider) : Word :=
  match d.var with
  | .full => d.ddf
  | .lean => neg64 d.ddf

/-- The quotient by a divider: the applicator its variant names (R104). -/
def Divider.quotient (d : Divider) (n : Word) : Word :=
  match d.var with
  | .full => divideF n d.ddf d.magic
  | .lean => applyLean n d.ddf d.magic

/-- CONSTRUCT of either variant: preamble, solve, write all four fields together (R101, R133). -/
def construct (v : Variant) (i : Nat) (s : State) : Result :=
  afterChecks (checkFree i s) fun _ =>
    unlessDivisorZero (s.operand .opa)
      (respond none none (s.setSlot i (.constructed (newDivider v (s.operand .opa)))))

/-- `CONSTRUCT.F s` (R101). -/
def execConstructF (i : Nat) (s : State) : Result := construct .full i s

/-- `RELEASE s` (R102): the slot is Uninitialized again; its other fields have no value (R32). -/
def execRelease (i : Nat) (s : State) : Result :=
  afterChecks (checkDivider i s) fun _ => respond none none (s.setSlot i .uninitialized)

/-- `GETDIV s` (R103). -/
def execGetdiv (i : Nat) (s : State) : Result :=
  afterChecks (checkDivider i s) fun d => respond (some d.divisor) none s

/-- `DIV s` (R104). -/
def execDiv (i : Nat) (s : State) : Result :=
  afterChecks (checkDivider i s) fun d => respond (some (d.quotient (s.operand .opa))) none s

/-- `MOD s` (R105). -/
def execMod (i : Nat) (s : State) : Result :=
  afterChecks (checkFullDivider i s) fun d =>
    respond (some (moduloF (s.operand .opa) d.ddf d.magic)) none s

/-- `DIVMOD s` (R106): both results from the one sequence (R93). -/
def execDivmod (i : Nat) (s : State) : Result :=
  afterChecks (checkFullDivider i s) fun d =>
    respond (some (divModF (s.operand .opa) d.ddf d.magic).1)
      (some (divModF (s.operand .opa) d.ddf d.magic).2) s

end Sys2Proof.Machine
end

