-- ==== Sys2Proof/Machine/OneShot.lean ====
section
/-! DEFINITION. The one-shot commands of the full variant (43_oneshot_commands.md R120 to R123): solve and apply
within the one command, reading and writing no slot. DIV1.L is in LeanVariant.lean. -/

namespace Sys2Proof.Machine

/-- The frame of a one-shot command (R120): N in OPA, D in OPB, and a divisor of 0 undefined (R146). -/
def oneShot (s : State) (body : Word → Word → Result) : Result :=
  unlessDivisorZero (s.operand .opb) (body (s.operand .opa) (s.operand .opb))

/-- `DIV1.F` (R121). -/
def execDiv1F (s : State) : Result :=
  oneShot s fun n d => respond (some (divideF n d (solve .full d))) none s

/-- `MOD1` (R122). -/
def execMod1 (s : State) : Result :=
  oneShot s fun n d => respond (some (moduloF n d (solve .full d))) none s

/-- `DIVMOD1` (R123). -/
def execDivmod1 (s : State) : Result :=
  oneShot s fun n d =>
    respond (some (divModF n d (solve .full d)).1) (some (divModF n d (solve .full d)).2) s

end Sys2Proof.Machine
end

