-- ==== Sys2Proof/Machine/LeanVariant.lean ====
section
/-! DEFINITION. The commands of the lean division-only variant (44_lean_variant.md R133, R134). DIV on a lean
slot is execDiv (R104). -/

namespace Sys2Proof.Machine

/-- `CONSTRUCT.L s` (R133). -/
def execConstructL (i : Nat) (s : State) : Result := construct .lean i s

/-- `DIV1.L` (R134). -/
def execDiv1L (s : State) : Result :=
  oneShot s fun n d => respond (some (applyLean n (neg64 d) (solve .lean d))) none s

end Sys2Proof.Machine
end

