-- ==== Sys2Proof/Machine/Dispatch.lean ====
section
/-! DEFINITION. One arm per command: each calls its own meaning. -/

namespace Sys2Proof.Machine

def exec (i : Instr) (s : State) : Host.Outcome State Fault Refusal :=
  match i with
  | .constructF slot => Sys2Proof.Machine.execConstructF slot s
  | .constructL slot => Sys2Proof.Machine.execConstructL slot s
  | .release slot => Sys2Proof.Machine.execRelease slot s
  | .getdiv slot => Sys2Proof.Machine.execGetdiv slot s
  | .div slot => Sys2Proof.Machine.execDiv slot s
  | .mod slot => Sys2Proof.Machine.execMod slot s
  | .divmod slot => Sys2Proof.Machine.execDivmod slot s
  | .div1F => Sys2Proof.Machine.execDiv1F s
  | .div1L => Sys2Proof.Machine.execDiv1L s
  | .mod1 => Sys2Proof.Machine.execMod1 s
  | .divmod1 => Sys2Proof.Machine.execDivmod1 s

end Sys2Proof.Machine
end

