-- ==== Sys2Proof/Machine/Step.lean ====
section
/-! DEFINITION. One step of the FDC: one moment of its pins (30_encoding.md R50, R51; 20_memory.md R43;
70_reset_and_hazards.md R160; log 6). Accepting a command, executing it and offering its response is one step.
Also the host's way to present a word (log 8). -/

namespace Sys2Proof.Machine

/-- Execute an accepted word: the command it decodes to, or `E_ILLEGAL` (R59, R140, R148). -/
def runWord (w : CmdWord) (s : State) : Result :=
  match decode w with
  | .command i => exec i s
  | .illegal why => answerIllegal why s

/-- One step. An undefined command goes on with its fault recorded, and while a fault is recorded only reset has an
effect (R146, U1, log 3). -/
def step (s : State) : Host.Outcome State Fault Refusal :=
  afterMoment
    (match s.moment with
     | .inReset => .next s.applyReset
     | .undefined => .next s
     | .responseTaken => .next s.dropResponse
     | .accepted w => recordingFault s (runWord w s)
     | .nothing => .next s)

/-- The state in which the host presents the word at this moment and the FDC is ready for it: no reset, no
response pending, no fault recorded, `cmd_valid` 1 (log 8). -/
def State.withFetchWord (s : State) (nbits w : Nat) : State :=
  { s with rsp := none, fault := none, pins := s.pins.present (BitVec.ofNat 32 (w % 2 ^ nbits)) }

end Sys2Proof.Machine
end

