-- ==== Sys2Proof/Safety.lean ====
section
/-! DEFINITION. What a good state and a dutiful host are, in the terms the statements use. -/

namespace Sys2Proof.Machine

/-- The invariant of a Constructed slot (10_state.md R26): a divisor that is not 0, and its magic constant. -/
abbrev Divider.Consistent (d : Divider) : Prop := d.divisor ≠ 0#64 ∧ d.magic = Sys2Proof.Machine.magic d.divisor

/-- A slot that no rule forbids. -/
abbrev Slot.Consistent (x : Slot) : Prop :=
  match x with
  | .uninitialized => True
  | .constructed d => d.Consistent
  | .noValue => True

/-- An offered response drives no result field on an error status, and the second only with the first
(30_encoding.md R60, 60_exceptions.md R142). -/
abbrev Response.Legal (r : Response) : Prop :=
  (r.status ≠ .ok → r.res0 = none ∧ r.res1 = none) ∧ (r.res0 = none → r.res1 = none)

/-- The invariant of the FDC: NSLOTS is 1 to 16 (R4), every Constructed slot is consistent (R26), an offered
response is legal (R60), every slot has a value while no fault is recorded, and no slot and no response has one while
a fault is recorded (60_exceptions.md R146). -/
structure State.Inv (s : State) : Prop where
  nslots_pos : 1 ≤ s.nslots
  nslots_le : s.nslots ≤ Config.maxSlots
  slots_ok : ∀ x ∈ s.slots, x.Consistent
  rsp_ok : ∀ r ∈ s.rsp, r.Legal
  valued : s.fault = none → ∀ x ∈ s.slots, x ≠ .noValue
  valueless : ∀ f, s.fault = some f → (∀ x ∈ s.slots, x = .noValue) ∧ s.rsp = none

/-- The host's duty at one moment (70_reset_and_hazards.md R166): a presented command that takes a divisor has a
divisor that is not 0. -/
def HostPins.Dutiful (p : HostPins) : Prop :=
  p.cmdValid = true → ∀ i, decode p.cmdWord = .command i →
    (divisorPort i = some .opa → p.cmdOpa ≠ 0#64) ∧ (divisorPort i = some .opb → p.cmdOpb ≠ 0#64)

/-- A host that keeps its duty now and at every later moment of its script. -/
def State.HostDutiful (s : State) : Prop := ∀ p ∈ s.pins :: s.script, p.Dutiful

/-! ### Kinds of commands the rules speak of -/

/-- CONSTRUCT of either variant (R100: OP = 1). -/
def isConstruct : Instr → Bool
  | .constructF _ | .constructL _ => true
  | .release _ | .getdiv _ | .div _ | .mod _ | .divmod _ | .div1F | .div1L | .mod1 | .divmod1 => false

/-- MOD and DIVMOD on a slot, which only a full-variant slot allows (R100: OP ∈ {5, 6}; R145). -/
def needsFullSlot : Instr → Bool
  | .mod _ | .divmod _ => true
  | .constructF _ | .constructL _ | .release _ | .getdiv _ | .div _ | .div1F | .div1L | .mod1 | .divmod1 => false

/-- The commands that write no slot: GETDIV, DIV, MOD, DIVMOD and the one-shot commands (20_memory.md R49). -/
def readsOnly : Instr → Bool
  | .getdiv _ | .div _ | .mod _ | .divmod _ | .div1F | .div1L | .mod1 | .divmod1 => true
  | .constructF _ | .constructL _ | .release _ => false

/-- The commands with a first result (30_encoding.md R60). -/
def hasFirstResult : Instr → Bool
  | .getdiv _ | .div _ | .mod _ | .divmod _ | .div1F | .div1L | .mod1 | .divmod1 => true
  | .constructF _ | .constructL _ | .release _ => false

/-- The commands with a second result (30_encoding.md R60). -/
def hasSecondResult : Instr → Bool
  | .divmod _ | .divmod1 => true
  | .constructF _ | .constructL _ | .release _ | .getdiv _ | .div _ | .mod _ | .div1F | .div1L | .mod1 => false

/-- The four lines of 42_divider_commands.md R100, in its order, for a slot command that names slot `k`: the
status raised, or OK when the command reaches its body; none for a slot that has no value. -/
def preambleStatus (i : Instr) (k : Nat) (s : State) : Option Status :=
  match s.slotAt k with
  | none => some .eRange
  | some .uninitialized => some (if isConstruct i then Status.ok else Status.eUninit)
  | some (.constructed d) =>
    some (if isConstruct i then Status.eBusy
      else if needsFullSlot i && (d.var == .lean) then Status.eNomod
      else Status.ok)
  | some .noValue => none

/-- The floor quotient of two 64-bit values (00_scope.md section 6.1, R11). -/
def quotientOf (n d : Word) : Word := BitVec.ofNat 64 (n.toNat / d.toNat)

/-- The remainder of the floor division (00_scope.md R11). -/
def remainderOf (n d : Word) : Word := BitVec.ofNat 64 (n.toNat % d.toNat)

/-- The word of a slot command: `match | (s << 8)` (30_encoding.md R56). -/
def slotWord (pattern : CmdWord) (k : Nat) : CmdWord := pattern ||| (BitVec.ofNat 32 k <<< 8)

end Sys2Proof.Machine
end

