-- ==== Sys2Proof/Certificates/Slice0/Obligations.lean ====
section
/-! DEFINITION. The statements about the FDC, one def per obligation; OBLIGATIONS.json lists them.

A statement writes a whole next state with three operations: `s.offer r` is `s` with `r` on the response channel
and nothing else changed; `s.setSlot k x` is `s` with slot `k` holding `x` and nothing else changed;
`s.withOperands a b` is `s` with `a` on cmd_opa and `b` on cmd_opb and nothing else changed. So an equation
`exec i s = .next (s.offer r)` is the result and the frame in one. -/

open Sys2Proof Sys2Proof.Machine

/-! ### Encoding (30_encoding.md) -/

/-- Decoding the word of a well-formed command gives the command back, with its slot index (R52, R56, R59). -/
def Obligations.DecodeOfEncodeIsTheCommand : Prop :=
  ∀ i : Instr, i.WellFormed → decode (encode i) = .command i

/-- A word that decodes to a command is that command's word, and the command is well-formed: no bit of a legal
word is dropped (R52, R58). -/
def Obligations.EncodeOfDecodeIsTheWord : Prop :=
  ∀ (w : CmdWord) (i : Instr), decode w = .command i → i.WellFormed ∧ encode i = w

/-- The decoder follows the match/mask table of R56: a word decodes to a command exactly when a row selects it,
with the slot of its `SLOT` field; a word that selects no row is illegal; and no word selects two rows. -/
def Obligations.DecodeFollowsTheMatchMaskTable : Prop :=
  ∀ w : CmdWord,
    (∀ i, decode w = .command i ↔ ∃ r ∈ commandTable, r.selects w ∧ i = r.build (slotOf w)) ∧
    ((∀ r ∈ commandTable, ¬ r.selects w) → ∃ why, decode w = .illegal why) ∧
    commandTable.Pairwise (fun a b => ¬ (a.selects w ∧ b.selects w))

/-- R58: which words are illegal; that every word is a command or illegal; that an illegal word changes no slot,
ignores its operands and is answered E_ILLEGAL; and that exactly 116 words are legal. -/
def Obligations.IllegalWordsAreThoseOfTheRule : Prop :=
  (∀ w : CmdWord,
    ((∃ why, decode w = .illegal why) ↔
      bits w 31 12 ≠ 0 ∨ bits w 7 5 ≠ 0
      ∨ bits w 3 0 ∈ [0, 7, 11, 12, 13, 14, 15]
      ∨ (bits w 3 0 ∈ [2, 3, 4, 5, 6, 9, 10] ∧ bits w 4 4 = 1)
      ∨ (bits w 3 0 ∈ [8, 9, 10] ∧ bits w 11 8 ≠ 0)) ∧
    ((∃ i, decode w = .command i) ↔ w ∈ legalCommands.map encode) ∧
    ((∃ i, decode w = .command i) ∨ ∃ why, decode w = .illegal why)) ∧
  legalCommands.length = 116 ∧ (legalCommands.map encode).Nodup ∧
  (∀ (s : State) (w : CmdWord) (why : IllegalWord), s.moment = .accepted w → decode w = .illegal why →
    ∀ a b, ∃ t, step (s.withOperands a b) = .next t ∧ t.slots = s.slots ∧
      t.rsp = some ⟨.eIllegal, none, none⟩)

/-- R140: E_ILLEGAL answers an accepted illegal word, decided from the word alone, and answers nothing else; the
rule's seven example words. -/
def Obligations.IllegalStatusComesFromTheWordAlone : Prop :=
  (∀ (s t : State) (w : CmdWord), s.moment = .accepted w → step s = .next t →
    (t.rsp = some ⟨.eIllegal, none, none⟩ ↔ ∃ why, decode w = .illegal why)) ∧
  (∀ w ∈ [0x00000000#32, 0x00000007#32, 0x00000014#32, 0x00000108#32, 0x00000019#32, 0x00001004#32,
      0x00000024#32],
    ∀ s : State, s.moment = .accepted w → ∃ t, step s = .next t ∧ t.rsp = some ⟨.eIllegal, none, none⟩)

/-- Words written out from the encoding of R52 and R56 (the picture `ssss 000v oooo`) decode to the commands
they stand for: one of every row. A sanity statement. -/
def Obligations.WrittenOutWordsDecode : Prop :=
  decode 0b00000000000000000000111100000001#32 = .command (.constructF 15) ∧
  decode 0b00000000000000000000000000010001#32 = .command (.constructL 0) ∧
  decode 0b00000000000000000000001100000010#32 = .command (.release 3) ∧
  decode 0b00000000000000000000000000000011#32 = .command (.getdiv 0) ∧
  decode 0b00000000000000000000101000000100#32 = .command (.div 10) ∧
  decode 0b00000000000000000000000100000101#32 = .command (.mod 1) ∧
  decode 0b00000000000000000000001000000110#32 = .command (.divmod 2) ∧
  decode 0b00000000000000000000000000001000#32 = .command .div1F ∧
  decode 0b00000000000000000000000000011000#32 = .command .div1L ∧
  decode 0b00000000000000000000000000001001#32 = .command .mod1 ∧
  decode 0b00000000000000000000000000001010#32 = .command .divmod1

/-- The assembler lines of R62: for every mnemonic, slot 0 to 15 and 64-bit numbers, the line is that command's word
with its operands in the order OPA, OPB; the two pseudo-commands are pure renamings; a slot of 16 or more or a number
of 2^64 or more is no line; and every line gives the word of the command its mnemonic names, with exactly the
operands that command uses (an operand it does not use is absent, the model's choice, log 18). -/
def Obligations.AssembledLineIsTheNamedCommand : Prop :=
  (∀ k a b : Nat, k < 16 → a < 2 ^ 64 → b < 2 ^ 64 →
    let x : Word := BitVec.ofNat 64 a
    let y : Word := BitVec.ofNat 64 b
    assemble (.plain .constructF) [k, a] = some ⟨slotWord 0x00000001#32 k, some x, none⟩ ∧
    assemble (.plain .constructL) [k, a] = some ⟨slotWord 0x00000011#32 k, some x, none⟩ ∧
    assemble (.plain .release) [k] = some ⟨slotWord 0x00000002#32 k, none, none⟩ ∧
    assemble (.plain .getdiv) [k] = some ⟨slotWord 0x00000003#32 k, none, none⟩ ∧
    assemble (.plain .div) [k, a] = some ⟨slotWord 0x00000004#32 k, some x, none⟩ ∧
    assemble (.plain .mod) [k, a] = some ⟨slotWord 0x00000005#32 k, some x, none⟩ ∧
    assemble (.plain .divmod) [k, a] = some ⟨slotWord 0x00000006#32 k, some x, none⟩ ∧
    assemble (.plain .div1F) [a, b] = some ⟨0x00000008#32, some x, some y⟩ ∧
    assemble (.plain .div1L) [a, b] = some ⟨0x00000018#32, some x, some y⟩ ∧
    assemble (.plain .mod1) [a, b] = some ⟨0x00000009#32, some x, some y⟩ ∧
    assemble (.plain .divmod1) [a, b] = some ⟨0x0000000A#32, some x, some y⟩) ∧
  (∀ args, assemble .ldiv1 args = assemble (.plain .div1L) args ∧
    assemble .construct args = assemble (.plain .constructF) args) ∧
  (∀ (name : AsmName) (k a b : Nat),
    (16 ≤ k → name.expand ∈ [Mnemonic.constructF, .constructL, .release, .getdiv, .div, .mod, .divmod] →
      assemble name [k] = none ∧ assemble name [k, a] = none) ∧
    (2 ^ 64 ≤ a → assemble name [k, a] = none ∧
      (name.expand ∈ [Mnemonic.div1F, .div1L, .mod1, .divmod1] → assemble name [a, b] = none))) ∧
  (∀ (name : AsmName) (args : List Nat) (c : CommandLine), assemble name args = some c →
    ∃ i : Instr, i.WellFormed ∧ decode c.word = .command i ∧ i.mnemonic = name.expand ∧
      (∀ k, i.slot? = some k → args.head? = some k) ∧
      (c.opa.isSome = true ↔ usesPort i .opa) ∧ (c.opb.isSome = true ↔ usesPort i .opb))

/-! ### Reset, channels and steps (30_encoding.md R50, R51; 70_reset_and_hazards.md) -/

/-- After reset every slot is Uninitialized, nothing is in flight and the FDC is ready, for every NSLOTS (R31,
R160); the default reset state has 4 slots (log 1). -/
def Obligations.ResetStateIsEmptyAndReady : Prop :=
  (∀ n k : Nat, k < n → (State.resetFor n).slotAt k = some .uninitialized) ∧
  (∀ n : Nat, (State.resetFor n).nslots = n ∧ (State.resetFor n).rsp = none ∧
    (State.resetFor n).fault = none ∧
    (State.resetFor n).cmdReady = some true ∧ (State.resetFor n).rspValid = some false) ∧
  State.reset = State.resetFor 4

/-- The reset state meets the invariant, for every NSLOTS the FDC may have. -/
def Obligations.ResetStateMeetsTheInvariant : Prop :=
  (∀ n : Nat, 1 ≤ n → n ≤ 16 → (State.resetFor n).Inv) ∧ State.reset.Inv

/-- R160, R161: while rst is asserted the FDC is neither ready nor valid; the reset event leaves every slot
Uninitialized, no response and no fault recorded, whatever was in flight and whatever undefined command ran before,
and keeps NSLOTS; once released the FDC is ready. That rst is sampled once per moment is log 9. -/
def Obligations.ResetAbandonsTheCommandInFlight : Prop :=
  ∀ s : State, s.pins.rst = true →
    s.cmdReady = some false ∧ s.rspValid = some false ∧
    ∃ t, step s = .next t ∧ t.nslots = s.nslots ∧ t.rsp = none ∧ t.fault = none ∧
      (∀ k < s.nslots, t.slotAt k = some .uninitialized) ∧
      (t.pins.rst = false → t.cmdReady = some true)

/-- A step runs the decoded command: when the FDC is ready and the host presents a word that decodes to `i`, the
step is exec of `i` at this state, and where exec faults its fault is recorded in this state (R146, log 3); the host
then moves to its next moment, which changes no slot, no response and no recorded fault (the model's move, log 6). -/
def Obligations.StepRunsTheAcceptedCommand : Prop :=
  (∀ (s : State) (i : Instr), s.cmdReady = some true → s.pins.cmdValid = true →
    decode s.pins.cmdWord = .command i →
    step s = (match exec i s with
      | .next t => .next t.hostMoves
      | .fault f => .next (s.recordFault f).hostMoves
      | .refused r => .refused r)) ∧
  (∀ t : State, t.hostMoves.slots = t.slots ∧ t.hostMoves.rsp = t.rsp ∧ t.hostMoves.fault = t.fault)

/-- The command channel (R50, R51): a word is accepted exactly when cmd_valid and cmd_ready are both 1, and then it
is the word on cmd_word; an accepted command leaves one response pending and the FDC not ready, unless it is undefined
(R146, log 3); a pending response goes exactly when it is taken or rst is asserted (R161; logs 15 and 16); and
whatever the host puts on cmd_valid, cmd_word, cmd_opa and cmd_opb while nothing is accepted has no effect on the
slots, the response or the recorded fault. That a step accepts, executes and offers in one is log 6. -/
def Obligations.OneCommandInFlight : Prop :=
  (∀ (s : State) (w : CmdWord), s.moment = .accepted w ↔
    s.pins.cmdValid = true ∧ s.cmdReady = some true ∧ s.pins.cmdWord = w) ∧
  (∀ (s : State) (w : CmdWord), s.moment = .accepted w → s.rsp = none ∧
    ∃ t, step s = .next t ∧ t.cmdReady ≠ some true ∧
      ((∃ r, t.rsp = some r) ∨ t.fault = some .divisorZero)) ∧
  (∀ (s : State) (r : Response), s.rsp = some r → s.fault = none → s.cmdReady = some false ∧
    ∃ t, step s = .next t ∧
      (t.rsp = none ↔ s.moment = .responseTaken ∨ s.pins.rst = true)) ∧
  (∀ (s : State) (p : HostPins),
    (s.cmdReady = some true → s.pins.cmdValid = false ∧ p.cmdValid = false) →
    p.rst = s.pins.rst → p.rspReady = s.pins.rspReady →
    ∃ t u, step s = .next t ∧ step { s with pins := p } = .next u ∧ u.slots = t.slots ∧ u.rsp = t.rsp ∧
      u.fault = t.fault)

/-- A pending response stays, the slots too, until the host takes it; taken, none of it is held; only reset can
end it otherwise (R51, R29, R161; that it is stable is log 15). The premise on the fault is the invariant's: a FDC with
a recorded fault has no response. -/
def Obligations.ResponseStaysUntilTaken : Prop :=
  ∀ (s : State) (r : Response), s.rsp = some r → s.fault = none →
    ∃ t, step s = .next t ∧ t.fault = none ∧
      (s.pins.rst = false → t.slots = s.slots) ∧
      (s.pins.rst = false → s.pins.rspReady = false → t.rsp = some r) ∧
      (s.pins.rst = false → s.pins.rspReady = true → t.rsp = none) ∧
      (s.pins.rst = true → t.rsp = none)

/-- An FDC to which nothing is presented keeps its slots (60_exceptions.md section 7, H6): a step that changes a
slot saw a reset, or accepted a CONSTRUCT or RELEASE answered OK whose slot it changed, or accepted an undefined
command (R146, log 3). -/
def Obligations.SlotsChangeOnlyByCommandOrReset : Prop :=
  ∀ s t : State, step s = .next t → t.slots ≠ s.slots →
    s.pins.rst = true ∨
    ∃ i, s.moment = .accepted s.pins.cmdWord ∧ decode s.pins.cmdWord = .command i ∧
      ((∃ k, i.slot? = some k ∧ readsOnly i = false ∧ t.rsp = some ⟨.ok, none, none⟩ ∧
          t.slotAt k ≠ s.slotAt k ∧ ∀ j, j ≠ k → t.slotAt j = s.slotAt j) ∨
        (exec i s = .fault .divisorZero ∧ t.fault = some .divisorZero))

/-- HEADLINE. Every step keeps the invariant, from every state that has it: NSLOTS is 1 to 16, every Constructed
slot holds a divisor that is not 0 with its magic constant (10_state.md R26), a pending response drives no result on
an error status (R60, R142), every slot has a value while no fault is recorded, and no slot and no response has one
while a fault is recorded (R146, U1). -/
def Obligations.EveryStepKeepsTheInvariant : Prop :=
  ∀ s t : State, s.Inv → step s = .next t → t.Inv

/-- No step changes NSLOTS, from any state. -/
def Obligations.EveryStepKeepsNslots : Prop :=
  ∀ s t : State, step s = .next t → t.nslots = s.nslots

/-- HEADLINE. A host that keeps its one duty (R166) never sees the FDC undefined: from every good state with no
fault recorded, every run of any length goes on, to such a state (R51: every accepted command produces a response).
A run longer than the script goes on with a host that drives nothing (log 13); the script is the model's (log 6). -/
def Obligations.DutifulHostNeverSeesAStop : Prop :=
  ∀ (k : Nat) (s : State), s.Inv → s.fault = none → s.HostDutiful →
    ∃ t : State, Host.Core.run Sys2Proof.core k s = .next t ∧ t.Inv ∧ t.fault = none ∧ t.HostDutiful ∧
      t.nslots = s.nslots

/-! ### The undefined case and the error statuses (60_exceptions.md) -/

/-- R146: a command is undefined exactly on a divisor operand of 0 that passed every check, in a FDC whose slots
have values, and on nothing else; no command is refused; GETDIV, DIV, MOD, DIVMOD and RELEASE are never undefined.
A slot command of a slot that has no value since an undefined command faults too (log 3). -/
def Obligations.FaultExactlyOnDivisorZero : Prop :=
  (∀ (i : Instr) (s : State) (f : Fault), exec i s = .fault f ↔
    ((∃ k, (i = .constructF k ∨ i = .constructL k) ∧ s.slotAt k = some .uninitialized
        ∧ s.operand .opa = 0#64)
      ∨ (i ∈ [Instr.div1F, .div1L, .mod1, .divmod1] ∧ s.operand .opb = 0#64)
      ∨ ∃ k, i.slot? = some k ∧ s.slotAt k = some .noValue)) ∧
  (∀ (i : Instr) (s : State) (r : Refusal), exec i s ≠ .refused r) ∧
  (∀ (i : Instr) (s : State) (k : Nat) (f : Fault), s.slotAt k ≠ some .noValue →
    i ∈ [Instr.release k, .getdiv k, .div k, .mod k, .divmod k] → exec i s ≠ .fault f)

/-- R146, U1: an accepted undefined command records a fault and leaves no slot and no response a value; while a fault
is recorded, whatever the host presents, no output has a value but in reset, and a step without rst keeps the fault
and gives no slot and no response a value; and reset alone ends it, in the reset state (R160). NSLOTS is kept. No step
stops. That the fault is a field of the state is the model's choice, log 3. -/
def Obligations.UndefinedCommandLastsUntilReset : Prop :=
  (∀ (s : State) (i : Instr) (f : Fault), s.moment = .accepted s.pins.cmdWord →
    decode s.pins.cmdWord = .command i → exec i s = .fault f →
    ∃ t, step s = .next t ∧ t.fault = some f ∧ t.rsp = none ∧ t.nslots = s.nslots ∧
      ∀ k < s.nslots, t.slotAt k = some .noValue) ∧
  (∀ (s : State) (p : HostPins) (f : Fault), s.Inv → s.fault = some f → p.rst = false →
    ({ s with pins := p } : State).cmdReady = none ∧ ({ s with pins := p } : State).rspValid = none ∧
    ({ s with pins := p } : State).rspStatus = none ∧ ({ s with pins := p } : State).rspRes0 = none ∧
    ({ s with pins := p } : State).rspRes1 = none ∧
    ∃ t, step { s with pins := p } = .next t ∧ t.fault = some f ∧ t.rsp = none ∧ t.nslots = s.nslots ∧
      ∀ k < s.nslots, t.slotAt k = some .noValue) ∧
  (∀ (s t : State), s.fault.isSome = true → step s = .next t →
    (t.fault = none ↔ s.pins.rst = true) ∧
    (s.pins.rst = true → t.slots = (State.resetFor s.nslots).slots ∧ t.rsp = none)) ∧
  (∀ s : State, ∃ t, step s = .next t)

/-- R148: an accepted word gets exactly one status, the first that applies: E_ILLEGAL, E_RANGE, then E_BUSY or
E_UNINIT, then E_NOMOD; else it executes and answers OK, or is undefined on a divisor of 0 (a fault that the step
records: the model's form, log 3). -/
def Obligations.StatusesComeInTheirPriority : Prop :=
  ∀ (s : State) (w : CmdWord), s.moment = .accepted w →
    (∀ why, decode w = .illegal why →
      ∃ t, step s = .next t ∧ t.slots = s.slots ∧ t.rsp = some ⟨.eIllegal, none, none⟩) ∧
    (∀ i k, decode w = .command i → i.slot? = some k →
      (s.nslots ≤ k → ∃ t, step s = .next t ∧ t.slots = s.slots ∧ t.rsp = some ⟨.eRange, none, none⟩) ∧
      (∀ d, s.slotAt k = some (.constructed d) → isConstruct i = true →
        ∃ t, step s = .next t ∧ t.slots = s.slots ∧ t.rsp = some ⟨.eBusy, none, none⟩) ∧
      (s.slotAt k = some .uninitialized → isConstruct i = false →
        ∃ t, step s = .next t ∧ t.slots = s.slots ∧ t.rsp = some ⟨.eUninit, none, none⟩) ∧
      (∀ d, s.slotAt k = some (.constructed d) → needsFullSlot i = true → d.var = .lean →
        ∃ t, step s = .next t ∧ t.slots = s.slots ∧ t.rsp = some ⟨.eNomod, none, none⟩)) ∧
    (∀ i, decode w = .command i → (∀ k, i.slot? = some k → preambleStatus i k s = some .ok) →
      (∃ t r, step s = .next t ∧ t.rsp = some r ∧ r.status = .ok) ∨
      ∃ p t, divisorPort i = some p ∧ s.operand p = 0#64 ∧ exec i s = .fault .divisorZero ∧
        step s = .next t ∧ t.fault = some .divisorZero)

/-- R142: an error status comes with no result and no change of any slot, and does not depend on the operands. -/
def Obligations.ErrorsChangeNothingAndReadNoOperand : Prop :=
  ∀ (i : Instr) (s t : State) (r : Response), exec i s = .next t → t.rsp = some r → r.status ≠ .ok →
    r.res0 = none ∧ r.res1 = none ∧ t = s.offer r ∧
    ∀ a b, exec i (s.withOperands a b) = .next ((s.withOperands a b).offer r)

/-- R141: E_RANGE answers exactly a slot command whose slot index is NSLOTS or more; it cannot occur with 16
slots and a 4-bit index, and never in a one-shot command; the rule's example. -/
def Obligations.RangeStatusExactlyPastNslots : Prop :=
  (∀ (i : Instr) (s : State),
    exec i s = .next (s.offer ⟨.eRange, none, none⟩) ↔ ∃ k, i.slot? = some k ∧ s.nslots ≤ k) ∧
  (∀ (i : Instr) (s t : State), exec i s = .next t → t.rsp = some ⟨.eRange, none, none⟩ →
    exec i s = .next (s.offer ⟨.eRange, none, none⟩)) ∧
  (∀ (i : Instr) (s : State), i.WellFormed → s.nslots = 16 →
    exec i s ≠ .next (s.offer ⟨.eRange, none, none⟩)) ∧
  (∀ i ∈ [Instr.div1F, .div1L, .mod1, .divmod1], ∀ s : State,
    exec i s ≠ .next (s.offer ⟨.eRange, none, none⟩)) ∧
  (decode 0x00000401#32 = .command (.constructF 4) ∧
    ∀ s : State, s.nslots = 4 → exec (.constructF 4) s = .next (s.offer ⟨.eRange, none, none⟩))

/-- R143: E_UNINIT answers exactly RELEASE, GETDIV, DIV, MOD or DIVMOD naming an Uninitialized slot in range; the
rule's example, `DIV 0, 5` after reset, for every NSLOTS. -/
def Obligations.UninitStatusExactlyOnEmptySlots : Prop :=
  (∀ (i : Instr) (s : State), exec i s = .next (s.offer ⟨.eUninit, none, none⟩) ↔
    ∃ k, i ∈ [Instr.release k, .getdiv k, .div k, .mod k, .divmod k] ∧ s.slotAt k = some .uninitialized) ∧
  (decode 0x00000004#32 = .command (.div 0) ∧
    ∀ (n : Nat) (b : Word), 1 ≤ n → exec (.div 0) ((State.resetFor n).withOperands 5#64 b)
      = .next (((State.resetFor n).withOperands 5#64 b).offer ⟨.eUninit, none, none⟩))

/-- R144: E_BUSY answers exactly a CONSTRUCT of either variant naming a Constructed slot, whatever its variant and
whatever the refused divisor, 0 included; the slot keeps its divider; the rule's example. -/
def Obligations.BusyStatusExactlyOnConstructedSlots : Prop :=
  (∀ (i : Instr) (s : State), exec i s = .next (s.offer ⟨.eBusy, none, none⟩) ↔
    ∃ k d, (i = .constructF k ∨ i = .constructL k) ∧ s.slotAt k = some (.constructed d)) ∧
  (∀ (s : State) (k : Nat) (d : Divider) (a b : Word), s.slotAt k = some (.constructed d) →
    exec (.constructF k) (s.withOperands a b)
      = .next ((s.withOperands a b).offer ⟨.eBusy, none, none⟩) ∧
    exec (.constructL k) (s.withOperands a b)
      = .next ((s.withOperands a b).offer ⟨.eBusy, none, none⟩) ∧
    ((s.withOperands a b).offer ⟨.eBusy, none, none⟩).slotAt k = some (.constructed d)) ∧
  (decode 0x00000311#32 = .command (.constructL 3) ∧
    ∀ (s : State) (b : Word), s.slotAt 3 = some .uninitialized → ∃ t d u,
      exec (.constructF 3) (s.withOperands 10#64 b) = .next t ∧ t.rsp = some ⟨.ok, none, none⟩ ∧
      t.slotAt 3 = some (.constructed d) ∧ d.var = .full ∧ d.divisor = 10#64 ∧
      exec (.constructL 3) (t.withOperands 11#64 b) = .next u ∧ u.rsp = some ⟨.eBusy, none, none⟩ ∧
      u.slotAt 3 = some (.constructed d))

/-- R145: E_NOMOD answers exactly MOD or DIVMOD naming a Constructed lean slot; no result is driven, not even the
quotient; the rule's example. -/
def Obligations.NomodStatusExactlyOnLeanSlots : Prop :=
  (∀ (i : Instr) (s : State), exec i s = .next (s.offer ⟨.eNomod, none, none⟩) ↔
    ∃ k d, (i = .mod k ∨ i = .divmod k) ∧ s.slotAt k = some (.constructed d) ∧ d.var = .lean) ∧
  (decode 0x00000105#32 = .command (.mod 1) ∧
    ∀ (s : State) (b : Word), s.slotAt 1 = some .uninitialized → ∃ t,
      exec (.constructL 1) (s.withOperands 0x0000000100000000#64 b) = .next t ∧
      t.rsp = some ⟨.ok, none, none⟩ ∧
      exec (.mod 1) (t.withOperands 5#64 b) = .next ((t.withOperands 5#64 b).offer ⟨.eNomod, none, none⟩))

/-- R61: the codes of the six statuses; 6 and 7 are never produced. -/
def Obligations.StatusCodesAreZeroToFive : Prop :=
  Status.ok.code = 0#3 ∧ Status.eIllegal.code = 1#3 ∧ Status.eRange.code = 2#3 ∧
  Status.eUninit.code = 3#3 ∧ Status.eBusy.code = 4#3 ∧ Status.eNomod.code = 5#3 ∧
  (∀ (s : State) (c : BitVec 3), s.rspStatus = some c → c ≠ 6#3 ∧ c ≠ 7#3)

/-- The response channel (R51, R60, R160): with a response pending, no reset and no fault recorded, rsp_valid is 1,
rsp_status is the code of its status, rsp_res0 and rsp_res1 are its result fields; at every other moment none of
these three has a value; rsp_valid and cmd_ready are the rule's, and in reset both are 0. RES0 is driven exactly with
OK and a command that has a first result, RES1 exactly with OK and a command that has a second (an undriven field is
absent, log 10). -/
def Obligations.ResultFieldsDrivenExactlyWhenTheyExist : Prop :=
  (∀ (s : State) (r : Response), s.rsp = some r → s.pins.rst = false → s.fault = none →
    s.rspValid = some true ∧ s.cmdReady = some false ∧ s.rspStatus = some r.status.code ∧
    s.rspRes0 = r.res0 ∧ s.rspRes1 = r.res1) ∧
  (∀ s : State, s.rspValid ≠ some true → s.rspStatus = none ∧ s.rspRes0 = none ∧ s.rspRes1 = none) ∧
  (∀ s : State, s.rsp = none → s.pins.rst = false → s.fault = none →
    s.rspValid = some false ∧ s.cmdReady = some true) ∧
  (∀ s : State, s.pins.rst = true → s.rspValid = some false ∧ s.cmdReady = some false) ∧
  (∀ s : State, s.rspValid = some true → s.rspStatus.isSome = true) ∧
  (∀ (i : Instr) (s t : State) (r : Response), exec i s = .next t → t.rsp = some r →
    (r.res0.isSome = true ↔ r.status = .ok ∧ hasFirstResult i = true) ∧
    (r.res1.isSome = true ↔ r.status = .ok ∧ hasSecondResult i = true))

/-! ### The slot array (10_state.md, 20_memory.md) -/

/-- The frame of every command that goes on (R20: no command writes more than one slot): exec keeps NSLOTS and the
recorded fault, offers a response, and leaves every slot but the named one; a reading command or a one-shot leaves
every slot; and exec leaves the pins and the script, which are the model's own fields (log 6). -/
def Obligations.CommandsWriteAtMostTheNamedSlot : Prop :=
  ∀ (i : Instr) (s t : State), exec i s = .next t →
    t.pins = s.pins ∧ t.script = s.script ∧ t.fault = s.fault ∧ t.nslots = s.nslots ∧
    (∃ r, t.rsp = some r) ∧
    (∀ j, i.slot? ≠ some j → t.slotAt j = s.slotAt j) ∧
    (readsOnly i = true → t.slots = s.slots)

/-- No command reads more than its named slot (R20), and a one-shot reads none (R120): two states that agree on
the pins and on the named slot get the same outcome, the same response and the same new contents of that slot,
whatever the other slots hold. -/
def Obligations.CommandsReadAtMostTheNamedSlot : Prop :=
  ∀ (i : Instr) (s u : State), s.pins = u.pins → (∀ k, i.slot? = some k → s.slotAt k = u.slotAt k) →
    faultOf? (exec i s) = faultOf? (exec i u) ∧
    ∀ t, exec i s = .next t → ∃ v, exec i u = .next v ∧ v.rsp = t.rsp ∧
      ∀ k, i.slot? = some k → v.slotAt k = t.slotAt k

/-- R57: an operand a command does not use is ignored, whatever its value. -/
def Obligations.UnusedOperandsAreIgnored : Prop :=
  ∀ (i : Instr) (s : State) (a b : Word),
    (usesPort i .opa → a = s.operand .opa) → (usesPort i .opb → b = s.operand .opb) →
    (∀ t, exec i s = .next t → exec i (s.withOperands a b) = .next (t.withOperands a b)) ∧
    (∀ f, exec i s = .fault f → exec i (s.withOperands a b) = .fault f)

/-- R26: a CONSTRUCT that answers OK leaves a slot whose divisor is the operand, not 0, with its magic constant;
and a Constructed slot keeps its divider, field for field, through every step but a RELEASE of that slot, a reset,
and a command that is itself undefined (R146, after which no slot has a value, log 3). -/
def Obligations.ConstructedDividerLastsUntilReleaseOrReset : Prop :=
  (∀ (i : Instr) (s t : State) (k : Nat), (i = .constructF k ∨ i = .constructL k) → exec i s = .next t →
    t.rsp = some ⟨.ok, none, none⟩ →
    ∃ d, t.slotAt k = some (.constructed d) ∧ d.divisor = s.operand .opa ∧ 1 ≤ d.divisor.toNat ∧
      d.magic.toNat = min (2 ^ 64 / d.divisor.toNat) (2 ^ 64 - 1)) ∧
  (∀ (s t : State) (j : Nat) (d : Divider), s.slotAt j = some (.constructed d) → step s = .next t →
    t.slotAt j = some (.constructed d) ∨
    (t.slotAt j = some .uninitialized ∧
      (s.pins.rst = true ∨ (s.moment = .accepted s.pins.cmdWord ∧ decode s.pins.cmdWord = .command (.release j)))) ∨
    (t.slotAt j = some .noValue ∧ t.fault = some .divisorZero ∧
      ∃ i, s.moment = .accepted s.pins.cmdWord ∧ decode s.pins.cmdWord = .command i ∧
        exec i s = .fault .divisorZero))

/-- Only a CONSTRUCT makes a slot Constructed (R21 to R24): if a step turns slot `j` from Uninitialized to
Constructed, the accepted command was CONSTRUCT.F or CONSTRUCT.L of slot `j` with a divisor D that is not 0, and
the slot holds that variant's form of D and Magic(D). -/
def Obligations.OnlyConstructMakesADivider : Prop :=
  ∀ (s t : State) (j : Nat) (d : Divider), s.slotAt j = some .uninitialized → step s = .next t →
    t.slotAt j = some (.constructed d) →
    s.moment = .accepted s.pins.cmdWord ∧
    s.operand .opa ≠ 0#64 ∧ d.magic.toNat = min (2 ^ 64 / (s.operand .opa).toNat) (2 ^ 64 - 1) ∧
    ((decode s.pins.cmdWord = .command (.constructF j) ∧ d.var = .full ∧ d.ddf = s.operand .opa) ∨
     (decode s.pins.cmdWord = .command (.constructL j) ∧ d.var = .lean ∧
       d.ddf.toNat = 2 ^ 64 - (s.operand .opa).toNat))

/-- R49: any two commands that only read slot state commute: either order gives the same two responses and the
same slots. -/
def Obligations.ReadingCommandsCommute : Prop :=
  ∀ (i j : Instr) (s t u : State) (a b c d : Word), readsOnly i = true → readsOnly j = true →
    exec i (s.withOperands a b) = .next t → exec j (t.withOperands c d) = .next u →
    ∃ t' u', exec j (s.withOperands c d) = .next t' ∧ exec i (t'.withOperands a b) = .next u' ∧
      t'.rsp = u.rsp ∧ u'.rsp = t.rsp ∧ u'.slots = u.slots

/-! ### The commands (42_divider_commands.md, 43_oneshot_commands.md, 44_lean_variant.md) -/

/-- R101, CONSTRUCT.F: its word, its statuses, the undefined divisor 0, and the divider it stores. -/
def Obligations.ConstructFullStoresTheDivider : Prop :=
  (∀ k < 16, encode (.constructF k) = slotWord 0x00000001#32 k) ∧
  ∀ (s : State) (k : Nat),
    (s.nslots ≤ k → exec (.constructF k) s = .next (s.offer ⟨.eRange, none, none⟩)) ∧
    (∀ d, s.slotAt k = some (.constructed d) →
      exec (.constructF k) s = .next (s.offer ⟨.eBusy, none, none⟩)) ∧
    (s.slotAt k = some .uninitialized → s.operand .opa = 0#64 →
      exec (.constructF k) s = .fault .divisorZero) ∧
    (s.slotAt k = some .uninitialized → s.operand .opa ≠ 0#64 →
      exec (.constructF k) s = .next ((s.setSlot k (.constructed
        ⟨.full, s.operand .opa,
          BitVec.ofNat 64 (min (2 ^ 64 / (s.operand .opa).toNat) (2 ^ 64 - 1))⟩)).offer ⟨.ok, none, none⟩))

/-- R133, CONSTRUCT.L: its word, its statuses, the undefined divisor 0, and the divider it stores, whose ddf is
the negated divisor. -/
def Obligations.ConstructLeanStoresTheNegatedDivisor : Prop :=
  (∀ k < 16, encode (.constructL k) = slotWord 0x00000011#32 k) ∧
  ∀ (s : State) (k : Nat),
    (s.nslots ≤ k → exec (.constructL k) s = .next (s.offer ⟨.eRange, none, none⟩)) ∧
    (∀ d, s.slotAt k = some (.constructed d) →
      exec (.constructL k) s = .next (s.offer ⟨.eBusy, none, none⟩)) ∧
    (s.slotAt k = some .uninitialized → s.operand .opa = 0#64 →
      exec (.constructL k) s = .fault .divisorZero) ∧
    (s.slotAt k = some .uninitialized → s.operand .opa ≠ 0#64 →
      exec (.constructL k) s = .next ((s.setSlot k (.constructed
        ⟨.lean, BitVec.ofNat 64 (2 ^ 64 - (s.operand .opa).toNat),
          BitVec.ofNat 64 (min (2 ^ 64 / (s.operand .opa).toNat) (2 ^ 64 - 1))⟩)).offer ⟨.ok, none, none⟩))

/-- R102, RELEASE: its word, its statuses, the slot it empties; a second RELEASE answers E_UNINIT, and the slot
may be constructed again in either variant with any divisor that is not 0. -/
def Obligations.ReleaseEndsTheDivider : Prop :=
  (∀ k < 16, encode (.release k) = slotWord 0x00000002#32 k) ∧
  ∀ (s : State) (k : Nat),
    (s.nslots ≤ k → exec (.release k) s = .next (s.offer ⟨.eRange, none, none⟩)) ∧
    (s.slotAt k = some .uninitialized → exec (.release k) s = .next (s.offer ⟨.eUninit, none, none⟩)) ∧
    (∀ d, s.slotAt k = some (.constructed d) →
      ∃ t, exec (.release k) s = .next t ∧ t = (s.setSlot k .uninitialized).offer ⟨.ok, none, none⟩ ∧
        t.slotAt k = some .uninitialized ∧
        exec (.release k) t = .next (t.offer ⟨.eUninit, none, none⟩) ∧
        exec (.div k) t = .next (t.offer ⟨.eUninit, none, none⟩) ∧
        ∀ a b, a ≠ 0#64 → ∀ i ∈ [Instr.constructF k, .constructL k],
          ∃ u, exec i (t.withOperands a b) = .next u ∧ u.rsp = some ⟨.ok, none, none⟩)

/-- R103, GETDIV: its word, its statuses, and its result: the stored form in a full slot, its negation in a lean
one, which is the value the host gave to CONSTRUCT in either case. -/
def Obligations.GetdivReturnsTheDivisor : Prop :=
  (∀ k < 16, encode (.getdiv k) = slotWord 0x00000003#32 k) ∧
  (∀ (s : State) (k : Nat),
    (s.nslots ≤ k → exec (.getdiv k) s = .next (s.offer ⟨.eRange, none, none⟩)) ∧
    (s.slotAt k = some .uninitialized → exec (.getdiv k) s = .next (s.offer ⟨.eUninit, none, none⟩)) ∧
    (∀ d, s.slotAt k = some (.constructed d) → d.var = .full →
      exec (.getdiv k) s = .next (s.offer ⟨.ok, some d.ddf, none⟩)) ∧
    (∀ d, s.slotAt k = some (.constructed d) → d.var = .lean →
      exec (.getdiv k) s = .next (s.offer ⟨.ok, some (BitVec.ofNat 64 (2 ^ 64 - d.ddf.toNat)), none⟩))) ∧
  (∀ (s t : State) (k : Nat) (i : Instr), (i = .constructF k ∨ i = .constructL k) → exec i s = .next t →
    t.rsp = some ⟨.ok, none, none⟩ →
    ∀ a b, exec (.getdiv k) (t.withOperands a b)
      = .next ((t.withOperands a b).offer ⟨.ok, some (s.operand .opa), none⟩))

/-- R104, DIV: its word, its statuses, the applicator its slot's variant selects, and the exact quotient under
either variant. The last clause's hypothesis is the slot invariant of R26, which every step keeps. -/
def Obligations.DivIsTheFloorQuotient : Prop :=
  (∀ k < 16, encode (.div k) = slotWord 0x00000004#32 k) ∧
  ∀ (s : State) (k : Nat),
    (s.nslots ≤ k → exec (.div k) s = .next (s.offer ⟨.eRange, none, none⟩)) ∧
    (s.slotAt k = some .uninitialized → exec (.div k) s = .next (s.offer ⟨.eUninit, none, none⟩)) ∧
    (∀ d, s.slotAt k = some (.constructed d) → d.var = .full →
      exec (.div k) s = .next (s.offer ⟨.ok, some (applyFull (s.operand .opa) d.ddf d.magic).1, none⟩)) ∧
    (∀ d, s.slotAt k = some (.constructed d) → d.var = .lean →
      exec (.div k) s = .next (s.offer ⟨.ok, some (applyLean (s.operand .opa) d.ddf d.magic), none⟩)) ∧
    (∀ d, s.slotAt k = some (.constructed d) → d.Consistent →
      exec (.div k) s = .next (s.offer ⟨.ok, some (quotientOf (s.operand .opa) d.divisor), none⟩))

/-- R105, MOD: its word, its statuses, and the exact remainder, below the divisor. -/
def Obligations.ModIsTheRemainder : Prop :=
  (∀ k < 16, encode (.mod k) = slotWord 0x00000005#32 k) ∧
  ∀ (s : State) (k : Nat),
    (s.nslots ≤ k → exec (.mod k) s = .next (s.offer ⟨.eRange, none, none⟩)) ∧
    (s.slotAt k = some .uninitialized → exec (.mod k) s = .next (s.offer ⟨.eUninit, none, none⟩)) ∧
    (∀ d, s.slotAt k = some (.constructed d) → d.var = .lean →
      exec (.mod k) s = .next (s.offer ⟨.eNomod, none, none⟩)) ∧
    (∀ d, s.slotAt k = some (.constructed d) → d.var = .full →
      exec (.mod k) s = .next (s.offer ⟨.ok, some (applyFull (s.operand .opa) d.ddf d.magic).2, none⟩)) ∧
    (∀ d, s.slotAt k = some (.constructed d) → d.var = .full → d.Consistent →
      exec (.mod k) s = .next (s.offer ⟨.ok, some (remainderOf (s.operand .opa) d.divisor), none⟩) ∧
      (remainderOf (s.operand .opa) d.divisor).toNat < d.divisor.toNat)

/-- R106, DIVMOD: its word, its statuses, and the quotient in RES0 with the remainder in RES1. -/
def Obligations.DivmodIsQuotientAndRemainder : Prop :=
  (∀ k < 16, encode (.divmod k) = slotWord 0x00000006#32 k) ∧
  ∀ (s : State) (k : Nat),
    (s.nslots ≤ k → exec (.divmod k) s = .next (s.offer ⟨.eRange, none, none⟩)) ∧
    (s.slotAt k = some .uninitialized → exec (.divmod k) s = .next (s.offer ⟨.eUninit, none, none⟩)) ∧
    (∀ d, s.slotAt k = some (.constructed d) → d.var = .lean →
      exec (.divmod k) s = .next (s.offer ⟨.eNomod, none, none⟩)) ∧
    (∀ d, s.slotAt k = some (.constructed d) → d.var = .full →
      exec (.divmod k) s = .next (s.offer
        ⟨.ok, some (applyFull (s.operand .opa) d.ddf d.magic).1,
          some (applyFull (s.operand .opa) d.ddf d.magic).2⟩)) ∧
    (∀ d, s.slotAt k = some (.constructed d) → d.var = .full → d.Consistent →
      exec (.divmod k) s = .next (s.offer
        ⟨.ok, some (quotientOf (s.operand .opa) d.divisor), some (remainderOf (s.operand .opa) d.divisor)⟩))

/-- R121, DIV1.F: its word, the undefined divisor 0, and the exact quotient, which is what the solver and the
full applicator give, with no slot read or written. -/
def Obligations.OneShotFullDivideIsTheFloorQuotient : Prop :=
  encode .div1F = 0x00000008#32 ∧
  ∀ s : State,
    (s.operand .opb = 0#64 → exec .div1F s = .fault .divisorZero) ∧
    (s.operand .opb ≠ 0#64 →
      exec .div1F s = .next (s.offer ⟨.ok, some (quotientOf (s.operand .opa) (s.operand .opb)), none⟩) ∧
      quotientOf (s.operand .opa) (s.operand .opb)
        = (applyFull (s.operand .opa) (s.operand .opb) (solve .full (s.operand .opb))).1)

/-- R134, DIV1.L: its word, the undefined divisor 0, the exact quotient, which is what the solver and the lean
applicator give, equal to DIV1.F's. -/
def Obligations.OneShotLeanDivideIsTheFloorQuotient : Prop :=
  encode .div1L = 0x00000018#32 ∧
  ∀ s : State,
    (s.operand .opb = 0#64 → exec .div1L s = .fault .divisorZero) ∧
    (s.operand .opb ≠ 0#64 →
      exec .div1L s = .next (s.offer ⟨.ok, some (quotientOf (s.operand .opa) (s.operand .opb)), none⟩) ∧
      quotientOf (s.operand .opa) (s.operand .opb)
        = applyLean (s.operand .opa) (neg64 (s.operand .opb)) (solve .lean (s.operand .opb))) ∧
    exec .div1L s = exec .div1F s

/-- R122, MOD1: its word, the illegal lean form, the undefined divisor 0, and the exact remainder, which
is what the solver and the full applicator give. -/
def Obligations.OneShotModuloIsTheRemainder : Prop :=
  encode .mod1 = 0x00000009#32 ∧ decode 0x00000019#32 = .illegal .varNotAllowed ∧
  ∀ s : State,
    (s.operand .opb = 0#64 → exec .mod1 s = .fault .divisorZero) ∧
    (s.operand .opb ≠ 0#64 →
      exec .mod1 s = .next (s.offer ⟨.ok, some (remainderOf (s.operand .opa) (s.operand .opb)), none⟩) ∧
      (remainderOf (s.operand .opa) (s.operand .opb)).toNat < (s.operand .opb).toNat ∧
      remainderOf (s.operand .opa) (s.operand .opb)
        = (applyFull (s.operand .opa) (s.operand .opb) (solve .full (s.operand .opb))).2)

/-- R123, DIVMOD1: its word, the illegal lean form, the undefined divisor 0, and both exact results, which
are what the solver and the full applicator give. -/
def Obligations.OneShotDivmodIsQuotientAndRemainder : Prop :=
  encode .divmod1 = 0x0000000A#32 ∧ decode 0x0000001A#32 = .illegal .varNotAllowed ∧
  ∀ s : State,
    (s.operand .opb = 0#64 → exec .divmod1 s = .fault .divisorZero) ∧
    (s.operand .opb ≠ 0#64 →
      exec .divmod1 s = .next (s.offer
        ⟨.ok, some (quotientOf (s.operand .opa) (s.operand .opb)),
          some (remainderOf (s.operand .opa) (s.operand .opb))⟩) ∧
      (quotientOf (s.operand .opa) (s.operand .opb), remainderOf (s.operand .opa) (s.operand .opb))
        = applyFull (s.operand .opa) (s.operand .opb) (solve .full (s.operand .opb)))

/-- R124: each one-shot command gives the response its slot counterpart gives after a CONSTRUCT of the same
divisor in any Uninitialized slot; the one-shot leaves every slot as it was, the sequence leaves that slot
Constructed, and a RELEASE after it makes the slots equal too. -/
def Obligations.OneShotEqualsConstructThenSlotCommand : Prop :=
  ∀ (s : State) (k : Nat) (n d x y : Word), s.slotAt k = some .uninitialized → d ≠ 0#64 →
    ∀ row ∈ [(Instr.div1F, Instr.constructF k, Instr.div k), (.mod1, .constructF k, .mod k),
      (.divmod1, .constructF k, .divmod k), (.div1L, .constructL k, .div k)],
    ∃ one built last freed,
      exec row.1 (s.withOperands n d) = .next one ∧
      exec row.2.1 (s.withOperands d x) = .next built ∧
      exec row.2.2 (built.withOperands n y) = .next last ∧
      exec (.release k) last = .next freed ∧
      one.rsp = last.rsp ∧ one.slots = s.slots ∧
      (∃ dv, last.slotAt k = some (.constructed dv)) ∧ freed.slots = s.slots

/-- R107: for a dividend and a divisor, DIV, MOD and DIVMOD of every full slot that holds the divisor, in every
state, and the one-shot commands, give one and the same quotient and remainder, with N = q·D + r and r < D: the
results do not depend on the slot, on the other slots, or on what ran before. -/
def Obligations.SlotAndOneShotResultsAgree : Prop :=
  ∀ n d : Word, d ≠ 0#64 → ∃ q r : Word, n.toNat = q.toNat * d.toNat + r.toNat ∧ r.toNat < d.toNat ∧
    (∀ (s : State) (k : Nat) (dv : Divider), s.operand .opa = n → s.slotAt k = some (.constructed dv) →
      dv.var = .full → dv.Consistent → dv.divisor = d →
      exec (.div k) s = .next (s.offer ⟨.ok, some q, none⟩) ∧
      exec (.mod k) s = .next (s.offer ⟨.ok, some r, none⟩) ∧
      exec (.divmod k) s = .next (s.offer ⟨.ok, some q, some r⟩)) ∧
    (∀ s : State, s.operand .opa = n → s.operand .opb = d →
      exec .div1F s = .next (s.offer ⟨.ok, some q, none⟩) ∧
      exec .mod1 s = .next (s.offer ⟨.ok, some r, none⟩) ∧
      exec .divmod1 s = .next (s.offer ⟨.ok, some q, some r⟩))

/-! ### The arithmetic (00_scope.md, 40_solver.md, 41_applicator.md, 44_lean_variant.md) -/

/-- R7: the four-product construction, with its bounds, gives the high and the low half of the product. -/
def Obligations.FourPartialProductsMultiply : Prop :=
  ∀ a b : Word,
    (low32 a.toNat * low32 b.toNat < 2 ^ 64 ∧ low32 a.toNat * high32 b.toNat < 2 ^ 64 ∧
      high32 a.toNat * low32 b.toNat < 2 ^ 64 ∧ high32 a.toNat * high32 b.toNat < 2 ^ 64) ∧
    midColumn a b < 3 * 2 ^ 32 ∧ mulhiFromParts a b = mulhi a b ∧ mulloFromParts a b = mullo a b

/-- R72: the closed form of the magic constant for both variants, its bounds, its shortfall, when the shortfall
is 0, that it never increases with D, and the rule's examples. -/
def Obligations.MagicConstantClosedForm : Prop :=
  (∀ (v : Variant) (d : Word), d ≠ 0#64 →
    (solve v d).toNat = min (2 ^ 64 / d.toNat) (2 ^ 64 - 1) ∧
    1 ≤ (magic d).toNat ∧ ((magic d).toNat = 1 ↔ 2 ^ 63 < d.toNat) ∧
    (magic d).toNat * d.toNat ≤ 2 ^ 64 ∧
    (2 ≤ d.toNat → 2 ^ 64 - (magic d).toNat * d.toNat ≤ d.toNat - 1 ∧
      (2 ^ 64 - (magic d).toNat * d.toNat = 0 ↔ ∃ k, d.toNat = 2 ^ k)) ∧
    (d.toNat = 1 → 2 ^ 64 - (magic d).toNat * d.toNat = 1)) ∧
  (∀ d d' : Word, d ≠ 0#64 → d.toNat ≤ d'.toNat → (magic d').toNat ≤ (magic d).toNat) ∧
  magic 1#64 = max64 ∧ magic 2#64 = 0x8000000000000000#64 ∧ magic 3#64 = 0x5555555555555555#64 ∧
  magic 7#64 = 0x2492492492492492#64 ∧ magic 10#64 = 0x1999999999999999#64 ∧
  magic 0x0000000100000000#64 = 0x0000000100000000#64 ∧
  magic 0x0000000100000001#64 = 0x00000000FFFFFFFF#64 ∧
  magic 0x8000000000000000#64 = 2#64 ∧ magic 0x8000000000000001#64 = 1#64 ∧ magic max64 = 1#64

/-- R80 (b) and (c), for the stored magic constant: the product does not exceed 2^64 and falls short by at most
the divisor. -/
def Obligations.MagicMeetsTheApplicatorsDemands : Prop :=
  ∀ d : Word, d ≠ 0#64 →
    (magic d).toNat * d.toNat ≤ 2 ^ 64 ∧ 2 ^ 64 - (magic d).toNat * d.toNat ≤ d.toNat

/-- R91: with any magic constant that meets R80 (b) and (c), the estimate is the quotient or one less, and the
remainder candidate is exact, below 2·D, at most N, and is the remainder or the remainder plus D; so with the
stored magic constant; and the rule's examples. -/
def Obligations.EstimateIsLowByAtMostOne : Prop :=
  (∀ n d m : Word, d ≠ 0#64 → m.toNat * d.toNat ≤ 2 ^ 64 → 2 ^ 64 - m.toNat * d.toNat ≤ d.toNat →
    (estimate n m).toNat ≤ n.toNat / d.toNat ∧ n.toNat / d.toNat ≤ (estimate n m).toNat + 1 ∧
    (estimate n m).toNat * d.toNat ≤ n.toNat ∧
    n.toNat - (estimate n m).toNat * d.toNat < 2 * d.toNat ∧
    (candidateFull n d m).toNat = n.toNat - (estimate n m).toNat * d.toNat ∧
    ((estimate n m).toNat = n.toNat / d.toNat → (candidateFull n d m).toNat = n.toNat % d.toNat) ∧
    ((estimate n m).toNat + 1 = n.toNat / d.toNat →
      (candidateFull n d m).toNat = n.toNat % d.toNat + d.toNat)) ∧
  (∀ n d : Word, d ≠ 0#64 → (estimate n (magic d)).toNat ≤ n.toNat / d.toNat ∧
    n.toNat / d.toNat ≤ (estimate n (magic d)).toNat + 1) ∧
  estimate 100#64 (magic 7#64) = 14#64 ∧ estimate 12345#64 (magic 1#64) = 12344#64 ∧
  estimate 3#64 (magic 3#64) = 0#64

/-- R94, and R80's claim that (b) and (c) are enough: ApplyFull is exact for every N and D; the borrow is 1 exactly
when the estimate was exact. -/
def Obligations.FullApplicatorIsExact : Prop :=
  (∀ n d m : Word, d ≠ 0#64 → m.toNat * d.toNat ≤ 2 ^ 64 → 2 ^ 64 - m.toNat * d.toNat ≤ d.toNat →
    applyFull n d m = (quotientOf n d, remainderOf n d) ∧
    ((sub64 (candidateFull n d m) d).2 = true ↔ (estimate n m).toNat = n.toNat / d.toNat)) ∧
  (∀ n d : Word, d ≠ 0#64 → applyFull n d (magic d) = (quotientOf n d, remainderOf n d))

/-- R135, and R132's relation to the full sequence: ApplyLean is exact and equals the full variant's quotient; its
remainder candidate is exact and is the full one, and its carry is 1 exactly when the estimate was one low, which
is the inverted borrow. -/
def Obligations.LeanApplicatorIsExactAndEqualsTheFullOne : Prop :=
  (∀ n d m : Word, d ≠ 0#64 → m.toNat * d.toNat ≤ 2 ^ 64 → 2 ^ 64 - m.toNat * d.toNat ≤ d.toNat →
    applyLean n (neg64 d) m = quotientOf n d ∧ applyLean n (neg64 d) m = (applyFull n d m).1 ∧
    candidateLean n (neg64 d) m = candidateFull n d m ∧
    (candidateLean n (neg64 d) m).toNat = n.toNat - (estimate n m).toNat * d.toNat ∧
    ((add64 (candidateLean n (neg64 d) m) (neg64 d)).2 = true ↔ (estimate n m).toNat + 1 = n.toNat / d.toNat) ∧
    (add64 (candidateLean n (neg64 d) m) (neg64 d)).2 = !(sub64 (candidateFull n d m) d).2) ∧
  (∀ n d : Word, d ≠ 0#64 → applyLean n (neg64 d) (magic d) = quotientOf n d)

/-- R74 (with R73): the seed formula, the range of x0, that the two terms never overlap, that forcing bit 0 of x0
never reaches the seed or a later candidate, the seed's bounds, that it never over-estimates, that it is within a
quarter of the reciprocal plus one unit (written without fractions), and the rule's examples. -/
def Obligations.SeedApproximatesTheReciprocal : Prop :=
  (∀ d : Word, d ≠ 0#64 →
    (seedBits .lean d).toNat = 2 ^ 64 - d.toNat * 2 ^ clz64 d ∧
    1 ≤ (seedBits .lean d).toNat ∧ (seedBits .lean d).toNat ≤ 2 ^ 63 ∧
    seedBits .full d = seedBits .lean d ||| 1#64 ∧
    (∀ v, (1 ≤ clz64 d →
        (shr64 (shr64 (seedBits v d) 1) (63 - clz64 d)).toNat ≤ 2 ^ (clz64 d - 1)) ∧
      (clz64 d = 0 → shr64 (shr64 (seedBits v d) 1) (63 - clz64 d) = 0#64) ∧
      seed v d = shl64 1#64 (clz64 d) ||| shr64 (shr64 (seedBits v d) 1) (63 - clz64 d)) ∧
    seed .full d = seed .lean d ∧
    (∀ i, refine d i (seed .full d) = refine d i (seed .lean d)) ∧
    (seed .lean d).toNat = (2 ^ 64 + (seedBits .lean d).toNat) / 2 ^ (64 - clz64 d) ∧
    2 ^ clz64 d ≤ (seed .lean d).toNat ∧
    (1 ≤ clz64 d → (seed .lean d).toNat ≤ 2 ^ clz64 d + 2 ^ (clz64 d - 1)) ∧
    (clz64 d = 0 → seed .lean d = 1#64) ∧
    (seed .lean d).toNat * d.toNat ≤ 2 ^ 64 ∧
    4 * (2 ^ 64 - (seed .lean d).toNat * d.toNat) < 2 ^ 64 + 4 * d.toNat) ∧
  (seedBits .full 7#64 = 0x2000000000000001#64 ∧ seedBits .lean 7#64 = 0x2000000000000000#64 ∧
    seed .full 7#64 = 0x2400000000000000#64 ∧ clz64 1#64 = 63 ∧ seed .full 1#64 = 0xC000000000000000#64 ∧
    seed .full 0x8000000000000000#64 = 1#64 ∧ seed .full 0x4000000000000000#64 = 3#64 ∧
    seedBits .full max64 = 1#64 ∧ seed .full max64 = 1#64)

/-- R75 and R76, for a candidate c of 1 or more that does not over-estimate: the residual is the exact shortfall;
a round never decreases the candidate, never over-estimates, never wraps, squares the error up to one unit
(both bounds written without fractions), and is the identity exactly when c·E(c) < 2^64; every candidate of the
solver is such a candidate; and the rules' examples. -/
def Obligations.RoundSquaresTheError : Prop :=
  (∀ d c : Word, d ≠ 0#64 → 1 ≤ c.toNat → c.toNat * d.toNat ≤ 2 ^ 64 →
    (residualOf d c).toNat = 2 ^ 64 - c.toNat * d.toNat ∧
    c.toNat ≤ (refineRound d c).toNat ∧
    (refineRound d c).toNat = c.toNat + c.toNat * (residualOf d c).toNat / 2 ^ 64 ∧
    (refineRound d c).toNat * d.toNat ≤ 2 ^ 64 ∧
    (2 ^ 64 - c.toNat * d.toNat) ^ 2 ≤ (2 ^ 64 - (refineRound d c).toNat * d.toNat) * 2 ^ 64 ∧
    (2 ^ 64 - (refineRound d c).toNat * d.toNat) * 2 ^ 64
      < (2 ^ 64 - c.toNat * d.toNat) ^ 2 + d.toNat * 2 ^ 64 ∧
    (refineRound d c = c ↔ c.toNat * (residualOf d c).toNat < 2 ^ 64)) ∧
  (∀ (v : Variant) (d : Word) (i : Nat), d ≠ 0#64 → i ≤ 5 →
    1 ≤ (refine d i (seed v d)).toNat ∧ (refine d i (seed v d)).toNat * d.toNat ≤ 2 ^ 64) ∧
  residualOf 7#64 0x2400000000000000#64 = 0x0400000000000000#64 ∧
  refineRound 7#64 0x2400000000000000#64 = 0x2490000000000000#64

/-- R77: c5 is five rounds after the seed; the candidates c0 to c5 are at least 1, never over-estimate and never
decrease, and c5 is at most 2 below the floor of the reciprocal; the rule's example. -/
def Obligations.FiveRoundsEndAtMostTwoLow : Prop :=
  (∀ (v : Variant) (d : Word), d ≠ 0#64 →
    refined v d = refineRound d (refineRound d (refineRound d (refineRound d (refineRound d (seed v d))))) ∧
    (∀ i ≤ 5, 1 ≤ (refine d i (seed v d)).toNat ∧ (refine d i (seed v d)).toNat * d.toNat ≤ 2 ^ 64) ∧
    (∀ i < 5, (refine d i (seed v d)).toNat ≤ (refine d (i + 1) (seed v d)).toNat) ∧
    2 ^ 64 / d.toNat ≤ (refined v d).toNat + 2) ∧
  (refine 7#64 1 (seed .full 7#64) = 0x2490000000000000#64 ∧
    refine 7#64 2 (seed .full 7#64) = 0x2492490000000000#64 ∧
    refine 7#64 3 (seed .full 7#64) = 0x2492492492490000#64 ∧
    refine 7#64 4 (seed .full 7#64) = 0x2492492492492492#64 ∧ refined .full 7#64 = 0x2492492492492492#64)

/-- R78: the two variants' fix-up steps are one function, on every candidate: c + 1 if E(c) ≥ D and c ≠ MAX64,
else c; the borrow and the carry that decide it; that it asks whether c + 1 still does not over-estimate; that two
of them end the solver; and the rule's examples. -/
def Obligations.FixUpRealisationsAreOneFunction : Prop :=
  (∀ d c : Word, d ≠ 0#64 →
    fixStepFull d c = fixStep d c ∧ fixStepLean d c = fixStep d c ∧
    (fixStep d c).toNat
      = (if d.toNat ≤ (residualOf d c).toNat ∧ c.toNat ≠ 2 ^ 64 - 1 then c.toNat + 1 else c.toNat) ∧
    ((sub64 (residualOf d c) d).2 = true ↔ (residualOf d c).toNat < d.toNat) ∧
    ((add64 (residualOf d c) (neg64 d)).2 = true ↔ d.toNat ≤ (residualOf d c).toNat) ∧
    (∀ v, fixUp v d Config.nfix c = fixStep d (fixStep d c)) ∧
    (1 ≤ c.toNat → c.toNat * d.toNat ≤ 2 ^ 64 →
      (d.toNat ≤ (residualOf d c).toNat ↔ (c.toNat + 1) * d.toNat ≤ 2 ^ 64))) ∧
  (residualOf 7#64 (refined .full 7#64) = 2#64 ∧ solveDatapath .full 7#64 = 0x2492492492492492#64 ∧
    refined .full 2#64 = 0x7FFFFFFFFFFFFFFF#64 ∧ residualOf 2#64 0x7FFFFFFFFFFFFFFF#64 = 2#64 ∧
    fixStep 2#64 0x7FFFFFFFFFFFFFFF#64 = 0x8000000000000000#64 ∧ solveDatapath .full 2#64 = 0x8000000000000000#64 ∧
    refined .full 1#64 = max64 ∧ residualOf 1#64 max64 = 1#64)

/-- R79: the datapath (seed, exactly five rounds, two fix-up steps), in both variants, computes the
closed form for every divisor that is not 0, which is what the model takes Solve to be (log 4). The spec gives an
argument and large evaluations, no proof. -/
def Obligations.SolverDatapathComputesTheClosedForm : Prop :=
  ∀ (v : Variant) (d : Word), d ≠ 0#64 → solveDatapath v d = magic d ∧ solve v d = solveDatapath v d
end

