-- ==== Sys2Proof/Laws/Arith.lean ====
section
/-! SUPPORT. The numeric value of each arithmetic primitive (00_scope.md R5 to R10), so that no proof unfolds
one, and the value of the closed form (40_solver.md R72). -/

namespace Sys2Proof.Machine

section Primitives
variable (a b : Word)

theorem mullo_toNat : (mullo a b).toNat = a.toNat * b.toNat % 2 ^ 64 := by
  simp [mullo]

/-- The high half never needs reducing: it is at most 2^64 − 2. -/
theorem mulhi_toNat : (mulhi a b).toNat = a.toNat * b.toNat / 2 ^ 64 := by
  have h : a.toNat * b.toNat / 2 ^ 64 < 2 ^ 64 := by
    rw [Nat.div_lt_iff_lt_mul (by norm_num)]
    exact Nat.mul_lt_mul'' a.isLt b.isLt
  simpa [mulhi] using Nat.mod_eq_of_lt h

theorem neg64_toNat : (neg64 a).toNat = (2 ^ 64 - a.toNat) % 2 ^ 64 := by
  simp [neg64]

theorem toNat_pos {a : Word} (h : a ≠ 0#64) : 0 < a.toNat := by
  rcases Nat.eq_zero_or_pos a.toNat with h0 | h0
  · exact absurd (BitVec.eq_of_toNat_eq (by simpa using h0)) h
  · exact h0

theorem neg64_toNat_of_ne {a : Word} (h : a ≠ 0#64) : (neg64 a).toNat = 2 ^ 64 - a.toNat := by
  have h0 := toNat_pos h
  rw [neg64_toNat, Nat.mod_eq_of_lt (by omega)]

/-- Negation is its own inverse (R24: the divisor is recovered from the lean form). -/
@[simp] theorem neg64_neg64 : neg64 (neg64 a) = a := by
  apply BitVec.eq_of_toNat_eq
  have := a.isLt
  rw [neg64_toNat, neg64_toNat]
  rcases Nat.eq_zero_or_pos a.toNat with h | h
  · simp [h]
  · rw [Nat.mod_eq_of_lt (a := 2 ^ 64 - a.toNat) (by omega), Nat.mod_eq_of_lt (by omega)]
    omega

theorem neg64_ne_zero {a : Word} (h : a ≠ 0#64) : neg64 a ≠ 0#64 := by
  intro h0
  have := neg64_toNat_of_ne h
  have := a.isLt
  simp only [h0, BitVec.toNat_ofNat] at *
  omega

theorem shl64_toNat (k : Nat) : (shl64 a k).toNat = a.toNat * 2 ^ k % 2 ^ 64 := by
  simp [shl64]

theorem shr64_toNat (k : Nat) : (shr64 a k).toNat = a.toNat / 2 ^ k := by
  have h : a.toNat / 2 ^ k < 2 ^ 64 := lt_of_le_of_lt (Nat.div_le_self _ _) a.isLt
  simpa [shr64] using Nat.mod_eq_of_lt h

theorem add64_sum_toNat : (add64 a b).1.toNat = (a.toNat + b.toNat) % 2 ^ 64 := by
  simp [add64]

theorem add64_carry : (add64 a b).2 = true ↔ 2 ^ 64 ≤ a.toNat + b.toNat := by
  simp [add64]

theorem sub64_difference_toNat :
    (sub64 a b).1.toNat = (2 ^ 64 + a.toNat - b.toNat) % 2 ^ 64 := by
  simp [sub64]

theorem sub64_borrow : (sub64 a b).2 = true ↔ a.toNat < b.toNat := by
  simp [sub64]

@[simp] theorem bitWord_toNat (c : Bool) : (bitWord c).toNat = c.toNat := by
  cases c <;> rfl

theorem max64_toNat : max64.toNat = 2 ^ 64 - 1 := rfl

end Primitives

/-! ### The leading-zero count (R9) -/

theorem clz64_le (a : Word) : clz64 a ≤ 63 := by
  simp [clz64]

/-- `2^(63−L) ≤ a < 2^(64−L)` for L = clz64 a (R9). -/
theorem clz64_brackets {a : Word} (h : a ≠ 0#64) :
    2 ^ (63 - clz64 a) ≤ a.toNat ∧ a.toNat < 2 ^ (64 - clz64 a) := by
  have h0 : a.toNat ≠ 0 := (toNat_pos h).ne'
  have hlog : Nat.log2 a.toNat < 64 := (Nat.log2_lt h0).2 a.isLt
  have e1 : 63 - clz64 a = Nat.log2 a.toNat := by simp only [clz64]; omega
  have e2 : 64 - clz64 a = Nat.log2 a.toNat + 1 := by simp only [clz64]; omega
  rw [e1, e2]
  exact ⟨Nat.log2_self_le h0, Nat.lt_log2_self⟩

/-! ### The closed form (R72) -/

theorem magic_toNat (d : Word) : (magic d).toNat = min (2 ^ 64 / d.toNat) (2 ^ 64 - 1) := by
  simp [magic]

@[simp] theorem solve_eq_magic (v : Variant) (d : Word) : solve v d = magic d := rfl

/-! ### The applicators, as numbers -/

theorem estimate_toNat (n m : Word) : (estimate n m).toNat = n.toNat * m.toNat / 2 ^ 64 :=
  mulhi_toNat n m

/-! ### The rounds and the fix-up, one at a time -/

@[simp] theorem refine_zero (d c : Word) : refine d 0 c = c := rfl
@[simp] theorem refine_succ (d c : Word) (n : Nat) : refine d (n + 1) c = refine d n (refineRound d c) := rfl
@[simp] theorem fixUp_zero (v : Variant) (d c : Word) : fixUp v d 0 c = c := rfl
@[simp] theorem fixUp_succ (v : Variant) (d c : Word) (n : Nat) :
    fixUp v d (n + 1) c = fixUp v d n (fixStepOf v d c) := rfl

end Sys2Proof.Machine
end

