-- ==== Sys2Proof/Laws/State.lean ====
section
/-! SUPPORT. One lemma per field per update of State, so that no proof unfolds a record update. -/

namespace Sys2Proof.Machine

section Updates
variable (s : State) (i : Nat) (x : Slot) (r : Response) (f : Fault) (a b : Word) (nbits w : Nat)

@[simp] theorem State.setSlot_slots : (s.setSlot i x).slots = s.slots.set i x := rfl
@[simp] theorem State.setSlot_fault : (s.setSlot i x).fault = s.fault := rfl
@[simp] theorem State.setSlot_rsp : (s.setSlot i x).rsp = s.rsp := rfl
@[simp] theorem State.setSlot_pins : (s.setSlot i x).pins = s.pins := rfl
@[simp] theorem State.setSlot_script : (s.setSlot i x).script = s.script := rfl

@[simp] theorem State.offer_slots : (s.offer r).slots = s.slots := rfl
@[simp] theorem State.offer_fault : (s.offer r).fault = s.fault := rfl
@[simp] theorem State.offer_rsp : (s.offer r).rsp = some r := rfl
@[simp] theorem State.offer_pins : (s.offer r).pins = s.pins := rfl
@[simp] theorem State.offer_script : (s.offer r).script = s.script := rfl

@[simp] theorem State.dropResponse_slots : s.dropResponse.slots = s.slots := rfl
@[simp] theorem State.dropResponse_fault : s.dropResponse.fault = s.fault := rfl
@[simp] theorem State.dropResponse_rsp : s.dropResponse.rsp = none := rfl
@[simp] theorem State.dropResponse_pins : s.dropResponse.pins = s.pins := rfl
@[simp] theorem State.dropResponse_script : s.dropResponse.script = s.script := rfl

@[simp] theorem State.applyReset_slots :
    s.applyReset.slots = s.slots.map (fun _ => .uninitialized) := rfl
@[simp] theorem State.applyReset_fault : s.applyReset.fault = none := rfl
@[simp] theorem State.applyReset_rsp : s.applyReset.rsp = none := rfl
@[simp] theorem State.applyReset_pins : s.applyReset.pins = s.pins := rfl
@[simp] theorem State.applyReset_script : s.applyReset.script = s.script := rfl

@[simp] theorem State.recordFault_slots :
    (s.recordFault f).slots = s.slots.map (fun _ => .noValue) := rfl
@[simp] theorem State.recordFault_rsp : (s.recordFault f).rsp = none := rfl
@[simp] theorem State.recordFault_fault : (s.recordFault f).fault = some f := rfl
@[simp] theorem State.recordFault_pins : (s.recordFault f).pins = s.pins := rfl
@[simp] theorem State.recordFault_script : (s.recordFault f).script = s.script := rfl

@[simp] theorem State.withOperands_slots : (s.withOperands a b).slots = s.slots := rfl
@[simp] theorem State.withOperands_fault : (s.withOperands a b).fault = s.fault := rfl
@[simp] theorem State.withOperands_rsp : (s.withOperands a b).rsp = s.rsp := rfl
@[simp] theorem State.withOperands_script : (s.withOperands a b).script = s.script := rfl
@[simp] theorem State.withOperands_opa : (s.withOperands a b).operand .opa = a := rfl
@[simp] theorem State.withOperands_opb : (s.withOperands a b).operand .opb = b := rfl
@[simp] theorem State.withOperands_withOperands (c d : Word) :
    (s.withOperands a b).withOperands c d = s.withOperands c d := rfl

@[simp] theorem State.withFetchWord_slots : (s.withFetchWord nbits w).slots = s.slots := rfl
@[simp] theorem State.withFetchWord_fault : (s.withFetchWord nbits w).fault = none := rfl
@[simp] theorem State.withFetchWord_rsp : (s.withFetchWord nbits w).rsp = none := rfl
@[simp] theorem State.withFetchWord_script : (s.withFetchWord nbits w).script = s.script := rfl

@[simp] theorem State.offer_operand (p : OperandPort) : (s.offer r).operand p = s.operand p := by
  cases p <;> rfl
@[simp] theorem State.setSlot_operand (p : OperandPort) : (s.setSlot i x).operand p = s.operand p := by
  cases p <;> rfl

@[simp] theorem State.hostMoves_slots : s.hostMoves.slots = s.slots := by
  unfold State.hostMoves; split <;> rfl
@[simp] theorem State.hostMoves_rsp : s.hostMoves.rsp = s.rsp := by
  unfold State.hostMoves; split <;> rfl
@[simp] theorem State.hostMoves_fault : s.hostMoves.fault = s.fault := by
  unfold State.hostMoves; split <;> rfl

end Updates

section Reads
variable (s : State) (i j : Nat) (x : Slot) (r : Response) (a b : Word)

@[simp] theorem State.setSlot_nslots : (s.setSlot i x).nslots = s.nslots := by
  simp [State.nslots]
@[simp] theorem State.offer_nslots : (s.offer r).nslots = s.nslots := rfl
@[simp] theorem State.dropResponse_nslots : s.dropResponse.nslots = s.nslots := rfl
@[simp] theorem State.withOperands_nslots : (s.withOperands a b).nslots = s.nslots := rfl
@[simp] theorem State.applyReset_nslots : s.applyReset.nslots = s.nslots := by
  simp [State.nslots]
@[simp] theorem State.recordFault_nslots (f : Fault) : (s.recordFault f).nslots = s.nslots := by
  simp [State.nslots]
@[simp] theorem State.hostMoves_nslots : s.hostMoves.nslots = s.nslots := by
  simp [State.nslots]
@[simp] theorem State.resetFor_nslots (n : Nat) : (State.resetFor n).nslots = n := by
  simp [State.nslots, State.resetFor]

@[simp] theorem State.offer_slotAt : (s.offer r).slotAt i = s.slotAt i := rfl
@[simp] theorem State.dropResponse_slotAt : s.dropResponse.slotAt i = s.slotAt i := rfl
@[simp] theorem State.withOperands_slotAt : (s.withOperands a b).slotAt i = s.slotAt i := rfl
@[simp] theorem State.hostMoves_slotAt : s.hostMoves.slotAt i = s.slotAt i := by
  simp [State.slotAt]

/-- After reset every slot is Uninitialized, and there is one where there was one. -/
theorem State.applyReset_slotAt : s.applyReset.slotAt i = (s.slotAt i).map (fun _ => .uninitialized) :=
  List.getElem?_map

/-- After an undefined command no slot has a value. -/
theorem State.recordFault_slotAt (f : Fault) :
    (s.recordFault f).slotAt i = (s.slotAt i).map (fun _ => .noValue) :=
  List.getElem?_map

/-- A slot just written reads back. -/
theorem State.setSlot_slotAt_self (h : i < s.nslots) : (s.setSlot i x).slotAt i = some x := by
  simp [State.slotAt, State.setSlot, List.getElem?_set_self (show i < s.slots.length from h)]

/-- Writing one slot leaves every other. -/
theorem State.setSlot_slotAt_ne (h : i ≠ j) : (s.setSlot i x).slotAt j = s.slotAt j := by
  simp [State.slotAt, h]

/-- A slot exists exactly when its index is below NSLOTS. -/
theorem State.slotAt_eq_none : s.slotAt i = none ↔ s.nslots ≤ i := by
  simp [State.slotAt, State.nslots]

theorem State.slotAt_lt (h : s.slotAt i = some x) : i < s.nslots := by
  simp only [State.slotAt, List.getElem?_eq_some_iff] at h
  exact h.1

theorem State.slotAt_mem (h : s.slotAt i = some x) : x ∈ s.slots :=
  List.mem_of_getElem? h

end Reads

end Sys2Proof.Machine
end

