-- ==== Sys2Proof/Laws/Ops.lean ====
section
/-! SUPPORT. What each shared operation can do, said once (42_divider_commands.md R100; 60_exceptions.md R142,
R146). -/

namespace Sys2Proof.Machine

/-! ### Answers -/

@[simp] theorem respond_eq (a b : Option Word) (s : State) :
    respond a b s = .next (s.offer ⟨.ok, a, b⟩) := rfl
@[simp] theorem raise_eq (e : Status) (s : State) : raise e s = .next (s.offer ⟨e, none, none⟩) := rfl

/-! ### The preamble (R100) -/

theorem checkFree_ok {i : Nat} {s : State} (h : s.slotAt i = some .uninitialized) :
    checkFree i s = .ok () := by
  simp [checkFree, h]

theorem checkFree_busy {i : Nat} {s : State} {d : Divider} (h : s.slotAt i = some (.constructed d)) :
    checkFree i s = .error (.next (s.offer ⟨.eBusy, none, none⟩)) := by
  simp [checkFree, h]

theorem checkFree_range {i : Nat} {s : State} (h : s.slotAt i = none) : checkFree i s = .error (.next (s.offer ⟨.eRange, none, none⟩)) := by
  simp [checkFree, h]

theorem checkFree_noValue {i : Nat} {s : State} (h : s.slotAt i = some .noValue) :
    checkFree i s = .error (.fault .divisorZero) := by
  simp [checkFree, h]

theorem checkDivider_ok {i : Nat} {s : State} {d : Divider} (h : s.slotAt i = some (.constructed d)) :
    checkDivider i s = .ok d := by
  simp [checkDivider, h]

theorem checkDivider_uninit {i : Nat} {s : State} (h : s.slotAt i = some .uninitialized) :
    checkDivider i s = .error (.next (s.offer ⟨.eUninit, none, none⟩)) := by
  simp [checkDivider, h]

theorem checkDivider_range {i : Nat} {s : State} (h : s.slotAt i = none) :
    checkDivider i s = .error (.next (s.offer ⟨.eRange, none, none⟩)) := by
  simp [checkDivider, h]

theorem checkDivider_noValue {i : Nat} {s : State} (h : s.slotAt i = some .noValue) :
    checkDivider i s = .error (.fault .divisorZero) := by
  simp [checkDivider, h]

theorem checkFullDivider_ok {i : Nat} {s : State} {d : Divider} (h : s.slotAt i = some (.constructed d))
    (hv : d.var = .full) : checkFullDivider i s = .ok d := by
  simp [checkFullDivider, checkDivider_ok h, hv]

theorem checkFullDivider_nomod {i : Nat} {s : State} {d : Divider} (h : s.slotAt i = some (.constructed d))
    (hv : d.var = .lean) : checkFullDivider i s = .error (.next (s.offer ⟨.eNomod, none, none⟩)) := by
  simp [checkFullDivider, checkDivider_ok h, hv]

theorem checkFullDivider_uninit {i : Nat} {s : State} (h : s.slotAt i = some .uninitialized) :
    checkFullDivider i s = .error (.next (s.offer ⟨.eUninit, none, none⟩)) := by
  simp [checkFullDivider, checkDivider_uninit h]

theorem checkFullDivider_range {i : Nat} {s : State} (h : s.slotAt i = none) :
    checkFullDivider i s = .error (.next (s.offer ⟨.eRange, none, none⟩)) := by
  simp [checkFullDivider, checkDivider_range h]

theorem checkFullDivider_noValue {i : Nat} {s : State} (h : s.slotAt i = some .noValue) :
    checkFullDivider i s = .error (.fault .divisorZero) := by
  simp [checkFullDivider, checkDivider_noValue h]

/-- Every way the CONSTRUCT checks can end. -/
theorem checkFree_cases (i : Nat) (s : State) :
    (s.slotAt i = none ∧ checkFree i s = .error (.next (s.offer ⟨.eRange, none, none⟩)))
    ∨ (∃ d, s.slotAt i = some (.constructed d) ∧ checkFree i s = .error (.next (s.offer ⟨.eBusy, none, none⟩)))
    ∨ (s.slotAt i = some .uninitialized ∧ checkFree i s = .ok ())
    ∨ (s.slotAt i = some .noValue ∧ checkFree i s = .error (.fault .divisorZero)) := by
  rcases h : s.slotAt i with _ | _ | d | _
  · exact .inl ⟨rfl, checkFree_range h⟩
  · exact .inr (.inr (.inl ⟨rfl, checkFree_ok h⟩))
  · exact .inr (.inl ⟨d, rfl, checkFree_busy h⟩)
  · exact .inr (.inr (.inr ⟨rfl, checkFree_noValue h⟩))

/-- Every way the checks of the reading commands and RELEASE can end. -/
theorem checkDivider_cases (i : Nat) (s : State) :
    (s.slotAt i = none ∧ checkDivider i s = .error (.next (s.offer ⟨.eRange, none, none⟩)))
    ∨ (s.slotAt i = some .uninitialized ∧ checkDivider i s = .error (.next (s.offer ⟨.eUninit, none, none⟩)))
    ∨ (∃ d, s.slotAt i = some (.constructed d) ∧ checkDivider i s = .ok d)
    ∨ (s.slotAt i = some .noValue ∧ checkDivider i s = .error (.fault .divisorZero)) := by
  rcases h : s.slotAt i with _ | _ | d | _
  · exact .inl ⟨rfl, checkDivider_range h⟩
  · exact .inr (.inl ⟨rfl, checkDivider_uninit h⟩)
  · exact .inr (.inr (.inl ⟨d, rfl, checkDivider_ok h⟩))
  · exact .inr (.inr (.inr ⟨rfl, checkDivider_noValue h⟩))

/-- Every way the checks of MOD and DIVMOD can end. -/
theorem checkFullDivider_cases (i : Nat) (s : State) :
    (s.slotAt i = none ∧ checkFullDivider i s = .error (.next (s.offer ⟨.eRange, none, none⟩)))
    ∨ (s.slotAt i = some .uninitialized ∧ checkFullDivider i s = .error (.next (s.offer ⟨.eUninit, none, none⟩)))
    ∨ (∃ d, s.slotAt i = some (.constructed d) ∧ d.var = .lean ∧ checkFullDivider i s = .error (.next (s.offer ⟨.eNomod, none, none⟩)))
    ∨ (∃ d, s.slotAt i = some (.constructed d) ∧ d.var = .full ∧ checkFullDivider i s = .ok d)
    ∨ (s.slotAt i = some .noValue ∧ checkFullDivider i s = .error (.fault .divisorZero)) := by
  rcases h : s.slotAt i with _ | _ | d | _
  · exact .inl ⟨rfl, checkFullDivider_range h⟩
  · exact .inr (.inl ⟨rfl, checkFullDivider_uninit h⟩)
  · rcases hv : d.var with _ | _
    · exact .inr (.inr (.inr (.inl ⟨d, rfl, hv, checkFullDivider_ok h hv⟩)))
    · exact .inr (.inr (.inl ⟨d, rfl, hv, checkFullDivider_nomod h hv⟩))
  · exact .inr (.inr (.inr (.inr ⟨rfl, checkFullDivider_noValue h⟩)))

@[simp] theorem afterChecks_ok {α : Type} (x : α) (body : α → Result) :
    afterChecks (.ok x) body = body x := rfl
@[simp] theorem afterChecks_error {α : Type} (o : Result) (body : α → Result) :
    afterChecks (.error o) body = o := rfl

@[simp] theorem recordingFault_next (s t : State) : recordingFault s (.next t) = .next t := rfl
@[simp] theorem recordingFault_fault (s : State) (f : Fault) :
    recordingFault s (.fault f) = .next (s.recordFault f) := rfl
@[simp] theorem recordingFault_refused (s : State) (r : Refusal) :
    recordingFault s (.refused r) = .refused r := rfl

theorem unlessDivisorZero_of_ne {d : Word} (h : d ≠ 0#64) (body : Result) :
    unlessDivisorZero d body = body := by
  simp [unlessDivisorZero, h]

@[simp] theorem unlessDivisorZero_zero (body : Result) :
    unlessDivisorZero 0#64 body = .fault .divisorZero := by
  simp [unlessDivisorZero]

/-! ### Dividers -/

@[simp] theorem newDivider_var (v : Variant) (d : Word) : (newDivider v d).var = v := rfl
@[simp] theorem newDivider_ddf (v : Variant) (d : Word) : (newDivider v d).ddf = ddfOf v d := rfl
@[simp] theorem newDivider_magic (v : Variant) (d : Word) : (newDivider v d).magic = magic d := rfl

theorem Divider.divisor_full {d : Divider} (h : d.var = .full) : d.divisor = d.ddf := by
  simp [Divider.divisor, h]
theorem Divider.divisor_lean {d : Divider} (h : d.var = .lean) : d.divisor = neg64 d.ddf := by
  simp [Divider.divisor, h]
theorem Divider.quotient_full {d : Divider} (h : d.var = .full) (n : Word) :
    d.quotient n = divideF n d.ddf d.magic := by
  simp [Divider.quotient, h]
theorem Divider.quotient_lean {d : Divider} (h : d.var = .lean) (n : Word) :
    d.quotient n = applyLean n d.ddf d.magic := by
  simp [Divider.quotient, h]

end Sys2Proof.Machine
end

