-- ==== Sys2Proof/Laws/PerInstr.lean ====
section
/-! SUPPORT. Per-command laws about encoding: the fields of every command's word are those of its row
(30_encoding.md R52, R56). -/

namespace Sys2Proof.Laws

/-- The fields of a packed word are the numbers packed, and its reserved fields are 0 (R52). -/
theorem packWord_fields {slot var op : Nat} (hs : slot < 16) (hv : var < 2) (ho : op < 16) :
    rsv1Of (packWord slot var op) = 0 ∧ slotOf (packWord slot var op) = slot
      ∧ rsv0Of (packWord slot var op) = 0 ∧ varOf (packWord slot var op) = var
      ∧ opOf (packWord slot var op) = op := by
  simp only [rsv1Of, slotOf, rsv0Of, varOf, opOf, bits, packWord, BitVec.toNat_ofNat]
  norm_num
  omega

namespace EncodedFields

/-- The `SLOT`, `VAR` and `OP` fields of a command's row (R56). -/
def fields : Instr → Nat × Nat × Nat
  | .constructF slot => (slot, 0, 1)
  | .constructL slot => (slot, 1, 1)
  | .release slot => (slot, 0, 2)
  | .getdiv slot => (slot, 0, 3)
  | .div slot => (slot, 0, 4)
  | .mod slot => (slot, 0, 5)
  | .divmod slot => (slot, 0, 6)
  | .div1F => (0, 0, 8)
  | .div1L => (0, 1, 8)
  | .mod1 => (0, 0, 9)
  | .divmod1 => (0, 0, 10)

/-- A well-formed command's word has its row's fields, the reserved ones 0. -/
def Statement (i : Instr) : Prop :=
  i.WellFormed → rsv1Of (encode i) = 0 ∧ slotOf (encode i) = (fields i).1 ∧ rsv0Of (encode i) = 0
    ∧ varOf (encode i) = (fields i).2.1 ∧ opOf (encode i) = (fields i).2.2

theorem constructF (slot : Nat) : Statement (.constructF slot) := fun h =>
  packWord_fields (of_decide_eq_true h) (by decide) (by decide)
theorem constructL (slot : Nat) : Statement (.constructL slot) := fun h =>
  packWord_fields (of_decide_eq_true h) (by decide) (by decide)
theorem release (slot : Nat) : Statement (.release slot) := fun h =>
  packWord_fields (of_decide_eq_true h) (by decide) (by decide)
theorem getdiv (slot : Nat) : Statement (.getdiv slot) := fun h =>
  packWord_fields (of_decide_eq_true h) (by decide) (by decide)
theorem div (slot : Nat) : Statement (.div slot) := fun h =>
  packWord_fields (of_decide_eq_true h) (by decide) (by decide)
theorem mod (slot : Nat) : Statement (.mod slot) := fun h =>
  packWord_fields (of_decide_eq_true h) (by decide) (by decide)
theorem divmod (slot : Nat) : Statement (.divmod slot) := fun h =>
  packWord_fields (of_decide_eq_true h) (by decide) (by decide)
theorem div1F : Statement .div1F := fun _ => packWord_fields (by decide) (by decide) (by decide)
theorem div1L : Statement .div1L := fun _ => packWord_fields (by decide) (by decide) (by decide)
theorem mod1 : Statement .mod1 := fun _ => packWord_fields (by decide) (by decide) (by decide)
theorem divmod1 : Statement .divmod1 := fun _ => packWord_fields (by decide) (by decide) (by decide)

end EncodedFields

/-- The fields of a word determine the word (R52: they cover all 32 bits). -/
theorem word_of_fields (w : CmdWord) :
    w.toNat = opOf w + 2 ^ 4 * varOf w + 2 ^ 5 * rsv0Of w + 2 ^ 8 * slotOf w + 2 ^ 12 * rsv1Of w := by
  have := w.isLt
  simp only [rsv1Of, slotOf, rsv0Of, varOf, opOf, bits]
  norm_num
  omega

end Sys2Proof.Laws
end

