-- ==== Sys2Proof/Laws/Step.lean ====
section
/-! SUPPORT. What a command and a step can do, said once: the inversion lemmas of exec and of step, which every
invariant follows from. -/

namespace Sys2Proof.Machine

/-- Every way a command can end, by its constructor: the state is the old one with a response offered, and at
most the named slot written. -/
theorem exec_next_cases {i : Instr} {s t : State} (h : exec i s = .next t) :
    (∃ r, t = s.offer r)
    ∨ (∃ k v, (i = .constructF k ∧ v = .full ∨ i = .constructL k ∧ v = .lean)
        ∧ s.slotAt k = some .uninitialized ∧ s.operand .opa ≠ 0#64
        ∧ t = (s.setSlot k (.constructed (newDivider v (s.operand .opa)))).offer ⟨.ok, none, none⟩)
    ∨ (∃ k d, i = .release k ∧ s.slotAt k = some (.constructed d)
        ∧ t = (s.setSlot k .uninitialized).offer ⟨.ok, none, none⟩) := by
  have construct_case : ∀ v k, construct v k s = .next t → (∃ r, t = s.offer r)
      ∨ (s.slotAt k = some .uninitialized ∧ s.operand .opa ≠ 0#64
        ∧ t = (s.setSlot k (.constructed (newDivider v (s.operand .opa)))).offer ⟨.ok, none, none⟩) := by
    intro v k hk
    rcases checkFree_cases k s with ⟨-, hc⟩ | ⟨d, -, hc⟩ | ⟨hs, hc⟩ | ⟨-, hc⟩
    · simp only [construct, hc, afterChecks_error, Host.Outcome.next.injEq] at hk
      exact .inl ⟨_, hk.symm⟩
    · simp only [construct, hc, afterChecks_error, Host.Outcome.next.injEq] at hk
      exact .inl ⟨_, hk.symm⟩
    · by_cases h0 : s.operand .opa = 0#64
      · simp [construct, hc, h0] at hk
      · simp only [construct, hc, afterChecks_ok, unlessDivisorZero_of_ne h0, respond_eq,
          Host.Outcome.next.injEq] at hk
        exact .inr ⟨hs, h0, hk.symm⟩
    · simp [construct, hc] at hk
  have divider_case : ∀ k (f : Divider → Option Word × Option Word),
      afterChecks (checkDivider k s) (fun d => respond (f d).1 (f d).2 s) = .next t → ∃ r, t = s.offer r := by
    intro k f hk
    rcases checkDivider_cases k s with ⟨-, hc⟩ | ⟨-, hc⟩ | ⟨d, -, hc⟩ | ⟨-, hc⟩ <;>
      simp only [hc, afterChecks_error, afterChecks_ok, respond_eq, Host.Outcome.next.injEq, reduceCtorEq] at hk <;>
      exact ⟨_, hk.symm⟩
  have full_case : ∀ k (f : Divider → Option Word × Option Word),
      afterChecks (checkFullDivider k s) (fun d => respond (f d).1 (f d).2 s) = .next t →
        ∃ r, t = s.offer r := by
    intro k f hk
    rcases checkFullDivider_cases k s with ⟨-, hc⟩ | ⟨-, hc⟩ | ⟨d, -, -, hc⟩ | ⟨d, -, -, hc⟩ | ⟨-, hc⟩ <;>
      simp only [hc, afterChecks_error, afterChecks_ok, respond_eq, Host.Outcome.next.injEq, reduceCtorEq] at hk <;>
      exact ⟨_, hk.symm⟩
  have oneShot_case : ∀ f : Word → Word → Option Word × Option Word,
      oneShot s (fun n d => respond (f n d).1 (f n d).2 s) = .next t → ∃ r, t = s.offer r := by
    intro f hk
    by_cases h0 : s.operand .opb = 0#64
    · simp [oneShot, h0] at hk
    · simp only [oneShot, unlessDivisorZero_of_ne h0, respond_eq, Host.Outcome.next.injEq] at hk
      exact ⟨_, hk.symm⟩
  cases i with
  | constructF k =>
    rcases construct_case .full k h with hr | ⟨h1, h2, h3⟩
    · exact .inl hr
    · exact .inr (.inl ⟨k, .full, .inl ⟨rfl, rfl⟩, h1, h2, h3⟩)
  | constructL k =>
    rcases construct_case .lean k h with hr | ⟨h1, h2, h3⟩
    · exact .inl hr
    · exact .inr (.inl ⟨k, .lean, .inr ⟨rfl, rfl⟩, h1, h2, h3⟩)
  | release k =>
    rcases checkDivider_cases k s with ⟨-, hc⟩ | ⟨-, hc⟩ | ⟨d, hs, hc⟩ | ⟨-, hc⟩
    · simp only [exec, execRelease, hc, afterChecks_error, Host.Outcome.next.injEq] at h
      exact .inl ⟨_, h.symm⟩
    · simp only [exec, execRelease, hc, afterChecks_error, Host.Outcome.next.injEq] at h
      exact .inl ⟨_, h.symm⟩
    · simp only [exec, execRelease, hc, afterChecks_ok, respond_eq, Host.Outcome.next.injEq] at h
      exact .inr (.inr ⟨k, d, rfl, hs, h.symm⟩)
    · simp [exec, execRelease, hc] at h
  | getdiv k => exact .inl (divider_case k (fun d => (some d.divisor, none)) h)
  | div k => exact .inl (divider_case k (fun d => (some (d.quotient (s.operand .opa)), none)) h)
  | mod k =>
    exact .inl (full_case k (fun d => (some (moduloF (s.operand .opa) d.ddf d.magic), none)) h)
  | divmod k =>
    exact .inl (full_case k (fun d => (some (divModF (s.operand .opa) d.ddf d.magic).1,
      some (divModF (s.operand .opa) d.ddf d.magic).2)) h)
  | div1F => exact .inl (oneShot_case (fun n d => (some (divideF n d (solve .full d)), none)) h)
  | div1L => exact .inl (oneShot_case (fun n d => (some (applyLean n (neg64 d) (solve .lean d)), none)) h)
  | mod1 => exact .inl (oneShot_case (fun n d => (some (moduloF n d (solve .full d)), none)) h)
  | divmod1 =>
    exact .inl (oneShot_case (fun n d => (some (divModF n d (solve .full d)).1,
      some (divModF n d (solve .full d)).2)) h)

/-- A step that goes on ends with the host's move. -/
theorem afterMoment_next {o : Result} {t : State} (h : afterMoment o = .next t) :
    ∃ u, o = .next u ∧ t = u.hostMoves := by
  cases o with
  | next u => exact ⟨u, rfl, by simpa [afterMoment] using h.symm⟩
  | fault f => simp [afterMoment] at h
  | refused r => simp [afterMoment] at h

/-- Every way a step can go on. -/
theorem step_next_cases {s t : State} (h : step s = .next t) :
    ∃ u, t = u.hostMoves ∧
      (s.moment = .inReset ∧ u = s.applyReset
      ∨ s.moment = .responseTaken ∧ u = s.dropResponse
      ∨ (s.moment = .nothing ∨ s.moment = .undefined) ∧ u = s
      ∨ (∃ w why, s.moment = .accepted w ∧ decode w = .illegal why ∧ u = s.offer ⟨.eIllegal, none, none⟩)
      ∨ (∃ w i, s.moment = .accepted w ∧ decode w = .command i ∧ exec i s = .next u)
      ∨ (∃ w i f, s.moment = .accepted w ∧ decode w = .command i ∧ exec i s = .fault f ∧ u = s.recordFault f)) := by
  obtain ⟨u, hu, rfl⟩ := afterMoment_next h
  refine ⟨u, rfl, ?_⟩
  rcases hm : s.moment with _ | _ | _ | w | _
  · simp only [hm, Host.Outcome.next.injEq] at hu
    exact .inl ⟨rfl, hu.symm⟩
  · simp only [hm, Host.Outcome.next.injEq] at hu
    exact .inr (.inr (.inl ⟨.inr rfl, hu.symm⟩))
  · simp only [hm, Host.Outcome.next.injEq] at hu
    exact .inr (.inl ⟨rfl, hu.symm⟩)
  · simp only [hm, runWord] at hu
    rcases hd : decode w with i | why
    · rcases he : exec i s with v | f | r
      · simp only [hd, he, recordingFault_next, Host.Outcome.next.injEq] at hu
        exact .inr (.inr (.inr (.inr (.inl ⟨w, i, rfl, hd, by rw [he, hu]⟩))))
      · simp only [hd, he, recordingFault_fault, Host.Outcome.next.injEq] at hu
        exact .inr (.inr (.inr (.inr (.inr ⟨w, i, f, rfl, hd, he, hu.symm⟩))))
      · simp [hd, he] at hu
    · simp only [hd, answerIllegal, raise_eq, recordingFault_next, Host.Outcome.next.injEq] at hu
      exact .inr (.inr (.inr (.inl ⟨w, why, rfl, hd, hu.symm⟩)))
  · simp only [hm, Host.Outcome.next.injEq] at hu
    exact .inr (.inr (.inl ⟨.inl rfl, hu.symm⟩))

/-! ### When each moment comes -/

/-- When a command word is accepted (R50). -/
theorem moment_accepted_iff (s : State) (w : CmdWord) :
    s.moment = .accepted w ↔
      s.pins.rst = false ∧ s.fault = none ∧ s.rsp = none ∧ s.pins.cmdValid = true ∧ s.pins.cmdWord = w := by
  rcases hr : s.rsp with _ | r <;> rcases hf : s.fault with _ | f <;> cases h1 : s.pins.rst <;>
    cases h2 : s.pins.rspReady <;> cases h3 : s.pins.cmdValid <;>
    simp [State.moment, State.rspValid, State.cmdReady, State.handshake, hr, hf, h1, h2, h3]

/-- When a response is taken (R51). -/
theorem moment_taken_iff (s : State) :
    s.moment = .responseTaken ↔
      s.pins.rst = false ∧ s.fault = none ∧ (∃ r, s.rsp = some r) ∧ s.pins.rspReady = true := by
  rcases hr : s.rsp with _ | r <;> rcases hf : s.fault with _ | f <;> cases h1 : s.pins.rst <;>
    cases h2 : s.pins.rspReady <;> cases h3 : s.pins.cmdValid <;>
    simp [State.moment, State.rspValid, State.cmdReady, State.handshake, hr, hf, h1, h2, h3]

/-- When the FDC is in reset (R160). -/
theorem moment_inReset_iff (s : State) : s.moment = .inReset ↔ s.pins.rst = true := by
  rcases hr : s.rsp with _ | r <;> rcases hf : s.fault with _ | f <;> cases h1 : s.pins.rst <;>
    cases h2 : s.pins.rspReady <;> cases h3 : s.pins.cmdValid <;>
    simp [State.moment, State.rspValid, State.cmdReady, State.handshake, hr, hf, h1, h2, h3]

/-- When nothing is promised (R146). -/
theorem moment_undefined_iff (s : State) :
    s.moment = .undefined ↔ s.pins.rst = false ∧ s.fault.isSome = true := by
  rcases hr : s.rsp with _ | r <;> rcases hf : s.fault with _ | f <;> cases h1 : s.pins.rst <;>
    cases h2 : s.pins.rspReady <;> cases h3 : s.pins.cmdValid <;>
    simp [State.moment, State.rspValid, State.cmdReady, State.handshake, hr, hf, h1, h2, h3]

end Sys2Proof.Machine
end

