-- ==== Sys2Proof/Tests/Slice0.lean ====
section
/-! SUPPORT. The model's own tests. Every expected value is taken from the tables of spec/95_test_vectors.md and
spec/96_command_vectors.md (named in each comment) or worked by hand from a rule; none is the model's answer pasted
back. The last part gives, for every statement with hypotheses, a state and operands that meet them together. -/

namespace Sys2Proof.Tests
open Sys2Proof.Machine

/-! ### Small states -/

/-- A FDC of four slots; slot 3 holds `x`, the others are Uninitialized; `a` and `b` on the operand ports. -/
def bench (x : Slot) (a b : Word) : State :=
  { slots := [.uninitialized, .uninitialized, .uninitialized, x], rsp := none, fault := none,
    pins := { HostPins.idle with cmdOpa := a, cmdOpb := b }, script := [] }

/-- The same state with a word presented. -/
def present (s : State) (w : CmdWord) : State := { s with pins := { s.pins with cmdValid := true, cmdWord := w } }

/-- The same state with a response pending. -/
def pending (s : State) : State := s.offer ⟨.ok, some 14#64, none⟩

/-- The full divider of 7 and the lean divider of 7 (96 section 1.1 and 1.2, end states; 95 section 3.1). -/
def full7 : Slot := .constructed ⟨.full, 7#64, 0x2492492492492492#64⟩
def lean7 : Slot := .constructed ⟨.lean, 0xFFFFFFFFFFFFFFF9#64, 0x2492492492492492#64⟩
/-- The dividers of the smallest and of the largest divisor (96 sections 1.1 and 1.2, end states). -/
def full1 : Slot := .constructed ⟨.full, 1#64, max64⟩
def fullMax : Slot := .constructed ⟨.full, max64, 1#64⟩
def lean1 : Slot := .constructed ⟨.lean, max64, max64⟩
def leanMax : Slot := .constructed ⟨.lean, 1#64, 1#64⟩

/-- A FDC in which an undefined command was accepted (R146). -/
def undefinedBench (p : HostPins) : State := { (bench full7 0#64 0#64).recordFault .divisorZero with pins := p }

/-- The response after one step. -/
def answer (s : State) : Option Response := (nextState? (step s)).bind (·.rsp)
/-- The slots after one step. -/
def slotsAfter (s : State) : Option (List Slot) := (nextState? (step s)).map (·.slots)
/-- The fault recorded after one step. -/
def faultAfter (s : State) : Option Fault := (nextState? (step s)).bind (·.fault)

/-! ### WellFormed refuses a slot index of 16 (30_encoding.md R52: the field has 4 bits) -/

theorem test_wf_constructF_16 : (Instr.constructF 16).wellFormed = false := by decide
theorem test_wf_constructL_16 : (Instr.constructL 16).wellFormed = false := by decide
theorem test_wf_release_16 : (Instr.release 16).wellFormed = false := by decide
theorem test_wf_getdiv_16 : (Instr.getdiv 16).wellFormed = false := by decide
theorem test_wf_div_16 : (Instr.div 16).wellFormed = false := by decide
theorem test_wf_mod_16 : (Instr.mod 16).wellFormed = false := by decide
theorem test_wf_divmod_16 : (Instr.divmod 16).wellFormed = false := by decide
theorem test_wf_slot_15 : (Instr.div 15).wellFormed = true := by decide

/-! ### Decoding: words written out from the picture of R52, `ssss 000v oooo` (95 section 6) -/

theorem test_decode_constructF : decode 0b00000000000000000000111100000001#32 = .command (.constructF 15) := by decide
theorem test_decode_constructL : decode 0b00000000000000000000000000010001#32 = .command (.constructL 0) := by decide
theorem test_decode_release : decode 0b00000000000000000000001100000010#32 = .command (.release 3) := by decide
theorem test_decode_getdiv : decode 0b00000000000000000000000000000011#32 = .command (.getdiv 0) := by decide
theorem test_decode_div : decode 0b00000000000000000000101000000100#32 = .command (.div 10) := by decide
theorem test_decode_mod : decode 0b00000000000000000000000100000101#32 = .command (.mod 1) := by decide
theorem test_decode_divmod : decode 0b00000000000000000000001000000110#32 = .command (.divmod 2) := by decide
theorem test_decode_div1F : decode 0b00000000000000000000000000001000#32 = .command .div1F := by decide
theorem test_decode_div1L : decode 0b00000000000000000000000000011000#32 = .command .div1L := by decide
theorem test_decode_mod1 : decode 0b00000000000000000000000000001001#32 = .command .mod1 := by decide
theorem test_decode_divmod1 : decode 0b00000000000000000000000000001010#32 = .command .divmod1 := by decide

theorem test_decode_reserved_op : decode 0x00000007#32 = .illegal .reservedOp := by decide
theorem test_decode_var_not_allowed : decode 0x00000014#32 = .illegal .varNotAllowed := by decide
theorem test_decode_slot_not_allowed : decode 0x00000F0A#32 = .illegal .slotNotAllowed := by decide
theorem test_decode_rsv0 : decode 0x00000081#32 = .illegal .rsv0NotZero := by decide
theorem test_decode_rsv1 : decode 0x80000004#32 = .illegal .rsv1NotZero := by decide
theorem test_table_word : decodeTableWord 32 0x00000A04 = some (.div 10) := by decide

/-- P1 and P2 of 95 section 8, written as assembler lines (R62). -/
theorem test_assemble_construct : assemble .construct [0, 7] = some ⟨0x00000001#32, some 7#64, none⟩ := by decide
theorem test_assemble_release : assemble (.plain .release) [1] = some ⟨0x00000102#32, none, none⟩ := by decide
theorem test_assemble_ldiv1 : assemble .ldiv1 [100, 7] = some ⟨0x00000018#32, some 100#64, some 7#64⟩ := by decide
theorem test_assemble_bad_slot : assemble (.plain .div) [16, 7] = none := by decide

/-! ### Primitives (95 section 2) -/

theorem test_mulhi : mulhi 0x123456789ABCDEF0#64 0xFEDCBA9876543210#64 = 0x121FA00AD77D7422#64 := by decide
theorem test_mullo : mullo 0x123456789ABCDEF0#64 0xFEDCBA9876543210#64 = 0x236D88FE5618CF00#64 := by decide
theorem test_mid_column : midColumn 0x123456789ABCDEF0#64 0xFEDCBA9876543210#64 = 0x1236D88FE := by decide
theorem test_mulhi_parts : mulhiFromParts max64 max64 = 0xFFFFFFFFFFFFFFFE#64 := by decide
theorem test_add64_carry : add64 max64 1#64 = (0#64, true) := by decide
theorem test_sub64_borrow : sub64 5#64 0x0000000100000000#64 = (0xFFFFFFFF00000005#64, true) := by decide
theorem test_neg64_zero : neg64 0#64 = 0#64 := by decide
theorem test_neg64_seven : neg64 7#64 = 0xFFFFFFFFFFFFFFF9#64 := by decide
theorem test_clz64 : clz64 0x281#64 = 54 := by decide
theorem test_shl64 : shl64 0xFFFFFFFFFFFFFFF9#64 61 = 0x2000000000000000#64 := by decide
theorem test_shr64 : shr64 0x2000000000000001#64 1 = 0x1000000000000000#64 := by decide

/-! ### Solver (95 section 3): D = 641, and the saturated and incremented ends -/

theorem test_seed_bits_641 : seedBits .full 0x281#64 = 0x5FC0000000000001#64 := by decide
theorem test_seed_641 : seed .lean 0x281#64 = 0x0057F00000000000#64 := by decide
theorem test_residual_641 : residualOf 0x281#64 0x0057F00000000000#64 = 0x23D0100000000000#64 := by decide
theorem test_round_641 : refineRound 0x281#64 0x0057F00000000000#64 = 0x00643D487F000000#64 := by decide
theorem test_rounds_641 : refined .full 0x281#64 = 0x00663D80FF99C27F#64 := by decide
theorem test_fix_up_2 : fixStepFull 2#64 0x7FFFFFFFFFFFFFFF#64 = 0x8000000000000000#64 := by decide
theorem test_fix_up_saturates : fixStepFull 1#64 max64 = max64 := by decide
theorem test_datapath_two_pow_32_plus_1 : solveDatapath .lean 0x0000000100000001#64 = 0x00000000FFFFFFFF#64 := by decide
theorem test_magic_1e9_plus_7 : magic 0x3B9ACA07#64 = 0x000000044B82F988#64 := by decide

/-! ### Applicators (95 section 4 rows 18 and 23, section 5 row 12) -/

theorem test_estimate : estimate max64 0x1999999999999999#64 = 0x1999999999999998#64 := by decide
theorem test_candidate : candidateFull max64 10#64 0x1999999999999999#64 = 15#64 := by decide
theorem test_apply_full : applyFull max64 0x4000000000000001#64 3#64 = (3#64, 0x3FFFFFFFFFFFFFFC#64) := by decide
theorem test_apply_lean :
    applyLean max64 0xFFFFFFFFFFFFFFFD#64 0x5555555555555555#64 = 0x5555555555555555#64 := by decide

/-! ### The commands, one step each (96 section 1) -/

/-- 1.1 step 3 and its end state. -/
theorem test_constructF : slotsAfter (present (bench .uninitialized 0x0000000100000001#64 0#64) 0x00000301#32)
    = some [.uninitialized, .uninitialized, .uninitialized,
        .constructed ⟨.full, 0x0000000100000001#64, 0x00000000FFFFFFFF#64⟩] := by decide
/-- 1.5: a busy slot is answered before the divisor is looked at. -/
theorem test_constructF_busy_zero : answer (present (bench full7 0#64 0#64) 0x00000301#32)
    = some ⟨.eBusy, none, none⟩ := by decide
/-- 1.2 step 0, in slot 3, and its end state. -/
theorem test_constructL : slotsAfter (present (bench .uninitialized 7#64 0#64) 0x00000311#32)
    = some [.uninitialized, .uninitialized, .uninitialized, lean7] := by decide
/-- 1.5: the undefined command records a fault. -/
theorem test_constructL_zero : faultAfter (present (bench .uninitialized 0#64 0#64) 0x00000311#32)
    = some .divisorZero := by decide
/-- 1.1 step 24: RELEASE ignores its operands. -/
theorem test_release : slotsAfter (present (bench full7 0x63#64 0x63#64) 0x00000302#32)
    = some [.uninitialized, .uninitialized, .uninitialized, .uninitialized] := by decide
/-- 1.4 step 7. -/
theorem test_release_range : answer (present (bench full7 0#64 0#64) 0x00000402#32)
    = some ⟨.eRange, none, none⟩ := by decide
/-- 1.2 step 4: the divisor, not the stored form. -/
theorem test_getdiv_lean : answer (present (bench lean7 0#64 0#64) 0x00000303#32)
    = some ⟨.ok, some 7#64, none⟩ := by decide
/-- 1.4 step 3, in slot 3. -/
theorem test_getdiv_uninit : answer (present (bench .uninitialized 0#64 0#64) 0x00000303#32)
    = some ⟨.eUninit, none, none⟩ := by decide
/-- 1.5 last row: N = 0 and OPB ignored. -/
theorem test_div_full : answer (present (bench full7 0#64 0#64) 0x00000304#32) = some ⟨.ok, some 0#64, none⟩ := by
  decide
/-- 1.2 step 9, in slot 3. -/
theorem test_div_lean : answer (present (bench lean7 max64 0#64) 0x00000304#32)
    = some ⟨.ok, some 0x2492492492492492#64, none⟩ := by decide
/-- FD section 8 scenario E1. -/
theorem test_mod : answer (present (bench full7 100#64 0#64) 0x00000305#32) = some ⟨.ok, some 2#64, none⟩ := by
  decide
/-- 1.2 step 18. -/
theorem test_mod_lean : answer (present (bench lean7 100#64 0#64) 0x00000305#32)
    = some ⟨.eNomod, none, none⟩ := by decide
/-- 1.1 step 13, in slot 3. -/
theorem test_divmod : answer (present (bench fullMax 0xFFFFFFFFFFFFFFFE#64 0#64) 0x00000306#32)
    = some ⟨.ok, some 0#64, some 0xFFFFFFFFFFFFFFFE#64⟩ := by decide
/-- 1.4 step 2: E_UNINIT before E_NOMOD. -/
theorem test_divmod_uninit : answer (present (bench .uninitialized 5#64 0#64) 0x00000306#32)
    = some ⟨.eUninit, none, none⟩ := by decide
/-- 1.3 step 18. -/
theorem test_div1F : answer (present (bench full7 max64 0x4000000000000001#64) 0x00000008#32)
    = some ⟨.ok, some 3#64, none⟩ := by decide
/-- 1.5. -/
theorem test_div1F_zero : faultAfter (present (bench full7 100#64 0#64) 0x00000008#32) = some .divisorZero := by
  decide
/-- 1.2 step 25. -/
theorem test_div1L : answer (present (bench full7 0x0000000100000001#64 0x281#64) 0x00000018#32)
    = some ⟨.ok, some 0x0000000000663D81#64, none⟩ := by decide
/-- 1.5: 0/0. -/
theorem test_div1L_zero : faultAfter (present (bench full7 0#64 0#64) 0x00000018#32) = some .divisorZero := by
  decide
/-- 1.3 step 20. -/
theorem test_mod1 : answer (present (bench full7 max64 9#64) 0x00000009#32) = some ⟨.ok, some 6#64, none⟩ := by
  decide
/-- 95 section 6: the lean form is illegal. -/
theorem test_mod1_lean : answer (present (bench full7 max64 9#64) 0x00000019#32)
    = some ⟨.eIllegal, none, none⟩ := by decide
/-- FD section 8 scenario E2. -/
theorem test_divmod1 : answer (present (bench full7 0x8000000000000005#64 0x0000000100000000#64) 0x0000000A#32)
    = some ⟨.ok, some 0x0000000080000000#64, some 5#64⟩ := by decide
/-- 1.3: one-shot commands write nothing. -/
theorem test_divmod1_frame : slotsAfter (present (bench full7 6#64 5#64) 0x0000000A#32)
    = some (bench full7 6#64 5#64).slots := by decide

/-- 1.4 step 16: an illegal word with a large SLOT field answers E_ILLEGAL, not E_RANGE. -/
theorem test_illegal_before_range : answer (present (bench full7 1#64 1#64) 0x00000F07#32)
    = some ⟨.eIllegal, none, none⟩ := by decide

/-! ### The channels and reset (R50, R51, R160, R161) -/

/-- A presented command waits while a response is pending. -/
theorem test_not_ready : answer (present (pending (bench full7 100#64 0#64)) 0x00000305#32)
    = some ⟨.ok, some 14#64, none⟩ := by decide
/-- Reset empties a Constructed slot and drops the response. -/
theorem test_reset : (nextState? (step { pending (bench full7 0#64 0#64) with
      pins := { HostPins.idle with rst := true } })).map (fun t => (t.slots, t.rsp))
    = some (List.replicate 4 .uninitialized, none) := by decide
/-- While a fault is recorded a command is not answered, and the fault stays (R146). -/
theorem test_undefined_stays : (nextState? (step (present (undefinedBench .idle) 0x00000003#32))).map
    (fun t => (t.fault, t.rsp, t.cmdReady)) = some (some .divisorZero, none, none) := by decide
/-- Reset clears it (U1): every slot is Uninitialized and the FDC is ready. -/
theorem test_reset_clears_fault : (nextState? (step (undefinedBench { HostPins.idle with rst := true }))).map
    (fun t => (t.slots, t.fault, t.cmdReady)) = some (List.replicate 4 .uninitialized, none, some true) := by decide
/-- The first step after reset runs the presented word (log 8). -/
theorem test_fetch_word : answer (State.reset.withFetchWord 32 0x00000301) = some ⟨.ok, none, none⟩ := by decide

/-! ### Witnesses: for every statement with hypotheses, values that meet them together

One theorem per statement; one line per clause, at boundary values. -/

theorem witness_DecodeOfEncodeIsTheCommand : (Instr.div 0).WellFormed ∧ (Instr.constructL 15).WellFormed := by decide

theorem witness_EncodeOfDecodeIsTheWord : decode 0x00000F11#32 = .command (.constructL 15) := by decide

theorem witness_DecodeFollowsTheMatchMaskTable : ∀ r ∈ commandTable, ¬ r.selects 0x00000007#32 := by
  simp [commandTable, Row.selects]

theorem witness_IllegalWordsAreThoseOfTheRule :
    (present (bench full7 0#64 0#64) 0x00001001#32).moment = .accepted 0x00001001#32 ∧
    decode 0x00001001#32 = .illegal .rsv1NotZero ∧ decode 0x000000E1#32 = .illegal .rsv0NotZero ∧
    decode 0x0000000F#32 = .illegal .reservedOp ∧ decode 0x0000001A#32 = .illegal .varNotAllowed ∧
    decode 0x00000108#32 = .illegal .slotNotAllowed := by decide

theorem witness_IllegalStatusComesFromTheWordAlone :
    (∃ t, (present (bench full7 0#64 0#64) 0x00000000#32).moment = .accepted 0x00000000#32 ∧
      step (present (bench full7 0#64 0#64) 0x00000000#32) = .next t) ∧
    (∃ t, (present (bench full7 0#64 0#64) 0x00000304#32).moment = .accepted 0x00000304#32 ∧
      step (present (bench full7 0#64 0#64) 0x00000304#32) = .next t) :=
  ⟨⟨_, by decide, rfl⟩, ⟨_, by decide, rfl⟩⟩

theorem witness_AssembledLineIsTheNamedCommand :
    (0 < 16 ∧ 15 < 16 ∧ 0 < 2 ^ 64 ∧ 18446744073709551615 < 2 ^ 64 ∧ 16 ≤ 16 ∧ 2 ^ 64 ≤ 18446744073709551616 : Prop) ∧
    AsmName.construct.expand ∈ [Mnemonic.constructF, .constructL, .release, .getdiv, .div, .mod, .divmod] ∧
    AsmName.ldiv1.expand ∈ [Mnemonic.div1F, .div1L, .mod1, .divmod1] ∧
    assemble (.plain .constructL) [15, 18446744073709551615] = some ⟨0x00000F11#32, some max64, none⟩ ∧
    assemble (.plain .getdiv) [0] = some ⟨0x00000003#32, none, none⟩ ∧
    assemble (.plain .divmod1) [0, 1] = some ⟨0x0000000A#32, some 0#64, some 1#64⟩ := by decide

theorem witness_ResetStateIsEmptyAndReady : (0 < 1 ∧ 15 < 16 ∧ 3 < 4 : Prop) := by decide

theorem witness_ResetStateMeetsTheInvariant : (1 ≤ 1 ∧ 1 ≤ 16 ∧ 1 ≤ 16 ∧ 16 ≤ 16 : Prop) := by decide

/-- A FDC in reset with a response pending and slot 3 Constructed; the host releases rst at the next moment. -/
theorem witness_ResetAbandonsTheCommandInFlight :
    ({ pending (bench full7 0#64 0#64) with pins := { HostPins.idle with rst := true } } : State).pins.rst = true ∧
    (nextState? (step { pending (bench full7 0#64 0#64) with
      pins := { HostPins.idle with rst := true } })).map (·.pins.rst) = some false := by decide

/-- A command that goes on and one that is undefined. -/
theorem witness_StepRunsTheAcceptedCommand :
    (present (bench full7 max64 0#64) 0x00000305#32).cmdReady = some true ∧
    (present (bench full7 max64 0#64) 0x00000305#32).pins.cmdValid = true ∧
    decode (present (bench full7 max64 0#64) 0x00000305#32).pins.cmdWord = .command (.mod 3) ∧
    (present (bench full7 0#64 0#64) 0x00000008#32).cmdReady = some true ∧
    decode (present (bench full7 0#64 0#64) 0x00000008#32).pins.cmdWord = .command .div1F := by decide

theorem witness_OneCommandInFlight :
    (present (bench full7 max64 0#64) 0x00000305#32).moment = .accepted 0x00000305#32 ∧
    (present (bench full7 max64 0#64) 0x00000008#32).moment = .accepted 0x00000008#32 ∧
    (pending (bench full7 0#64 0#64)).rsp = some ⟨.ok, some 14#64, none⟩ ∧
    (pending (bench full7 0#64 0#64)).fault = none ∧
    ((pending (bench full7 0#64 0#64)).cmdReady ≠ some true ∧
      ({ HostPins.idle with cmdValid := true, cmdWord := 0x00000302#32, cmdOpa := max64 } : HostPins).rst
        = (pending (bench full7 0#64 0#64)).pins.rst ∧
      ({ HostPins.idle with cmdValid := true, cmdWord := 0x00000302#32, cmdOpa := max64 } : HostPins).rspReady
        = (pending (bench full7 0#64 0#64)).pins.rspReady) ∧
    ((bench full7 0#64 0#64).cmdReady = some true ∧ (bench full7 0#64 0#64).pins.cmdValid = false ∧
      ({ HostPins.idle with cmdWord := 0x00000302#32 } : HostPins).cmdValid = false ∧
      ({ HostPins.idle with cmdWord := 0x00000302#32 } : HostPins).rst = (bench full7 0#64 0#64).pins.rst ∧
      ({ HostPins.idle with cmdWord := 0x00000302#32 } : HostPins).rspReady
        = (bench full7 0#64 0#64).pins.rspReady) := by decide

theorem witness_ResponseStaysUntilTaken :
    (pending (bench full7 0#64 0#64)).rsp = some ⟨.ok, some 14#64, none⟩ ∧
    (pending (bench full7 0#64 0#64)).fault = none ∧
    (pending (bench full7 0#64 0#64)).pins.rst = false ∧ (pending (bench full7 0#64 0#64)).pins.rspReady = false ∧
    ({ pending (bench full7 0#64 0#64) with pins := { HostPins.idle with rspReady := true } } : State).rsp
      = some ⟨.ok, some 14#64, none⟩ ∧
    ({ pending (bench full7 0#64 0#64) with pins := { HostPins.idle with rst := true } } : State).rsp
      = some ⟨.ok, some 14#64, none⟩ := by decide

/-- A CONSTRUCT, a RELEASE, a reset and an undefined command, each of which changes a slot. -/
theorem witness_SlotsChangeOnlyByCommandOrReset :
    (∃ t, step (present (bench .uninitialized 1#64 0#64) 0x00000301#32) = .next t ∧
      t.slots ≠ (present (bench .uninitialized 1#64 0#64) 0x00000301#32).slots) ∧
    (∃ t, step (present (bench full7 0#64 0#64) 0x00000302#32) = .next t ∧
      t.slots ≠ (present (bench full7 0#64 0#64) 0x00000302#32).slots) ∧
    (∃ t, step { bench full7 0#64 0#64 with pins := { HostPins.idle with rst := true } } = .next t ∧
      t.slots ≠ (bench full7 0#64 0#64).slots) ∧
    (∃ t, step (present (bench full7 0#64 0#64) 0x00000009#32) = .next t ∧
      t.slots ≠ (present (bench full7 0#64 0#64) 0x00000009#32).slots) :=
  ⟨⟨_, rfl, by decide⟩, ⟨_, rfl, by decide⟩, ⟨_, rfl, by decide⟩, ⟨_, rfl, by decide⟩⟩

/-- A state with a Constructed slot meets the invariant, whatever is on the pins; with a response pending too. -/
theorem bench_inv (x : Slot) (a b : Word) (w : CmdWord) (hx : x.Consistent) (hv : x ≠ .noValue) :
    (present (bench x a b) w).Inv ∧ (pending (bench x a b)).Inv := by
  have slots : ∀ y ∈ [Slot.uninitialized, .uninitialized, .uninitialized, x], y.Consistent ∧ y ≠ .noValue := by
    simp only [List.mem_cons, List.not_mem_nil, or_false]
    rintro y (rfl | rfl | rfl | rfl)
    · exact ⟨trivial, by decide⟩
    · exact ⟨trivial, by decide⟩
    · exact ⟨trivial, by decide⟩
    · exact ⟨hx, hv⟩
  have faultless : ∀ f : Fault, (none : Option Fault) = some f → False := by simp
  refine ⟨⟨show 1 ≤ 4 by decide, show 4 ≤ 16 by decide, fun y hy => (slots y hy).1, ?_,
      fun _ y hy => (slots y hy).2, fun f hf => (faultless f hf).elim⟩,
    ⟨show 1 ≤ 4 by decide, show 4 ≤ 16 by decide, fun y hy => (slots y hy).1, ?_,
      fun _ y hy => (slots y hy).2, fun f hf => (faultless f hf).elim⟩⟩
  · intro r hr
    exact absurd hr (by simp [present, bench])
  · intro r hr
    simp only [pending, State.offer_rsp, Option.mem_def, Option.some.injEq] at hr
    subst hr
    exact ⟨fun h => absurd rfl h, fun _ => rfl⟩

/-- A FDC in which an undefined command was accepted meets the invariant too. -/
theorem undefinedBench_inv (p : HostPins) : (undefinedBench p).Inv := by
  have slots : ∀ y ∈ (undefinedBench p).slots, y = .noValue := by
    intro y hy
    simp only [undefinedBench, State.recordFault_slots, List.mem_map] at hy
    obtain ⟨z, -, rfl⟩ := hy
    rfl
  refine ⟨show 1 ≤ 4 by decide, show 4 ≤ 16 by decide, fun y hy => ?_, fun r hr => ?_, fun h => ?_, fun f _ => ⟨slots, rfl⟩⟩
  · rw [slots y hy]; trivial
  · exact absurd hr (by simp [undefinedBench])
  · exact absurd h (by simp [undefinedBench])

theorem witness_EveryStepKeepsTheInvariant :
    ((present (bench full1 max64 0#64) 0x00000306#32).Inv ∧
      ∃ t, step (present (bench full1 max64 0#64) 0x00000306#32) = .next t) ∧
    ((pending (bench leanMax 0#64 0#64)).Inv ∧ ∃ t, step (pending (bench leanMax 0#64 0#64)) = .next t) ∧
    ((undefinedBench .idle).Inv ∧ ∃ t, step (undefinedBench .idle) = .next t) :=
  ⟨⟨(bench_inv full1 max64 0#64 _ ⟨by decide, by decide⟩ (by decide)).1, _, rfl⟩,
    ⟨(bench_inv leanMax 0#64 0#64 0#32 ⟨by decide, by decide⟩ (by decide)).2, _, rfl⟩,
    ⟨undefinedBench_inv .idle, _, rfl⟩⟩

theorem witness_EveryStepKeepsNslots :
    (∃ t, step (present (bench .uninitialized max64 0#64) 0x00000311#32) = .next t) ∧
    (∃ t, step (State.resetFor 1) = .next t) ∧ (∃ t, step (State.resetFor 16) = .next t) :=
  ⟨⟨_, rfl⟩, ⟨_, rfl⟩, ⟨_, rfl⟩⟩

/-- A host that presents DIV1.F with the smallest divisor, and after it an illegal word with a zero divisor. -/
theorem witness_DutifulHostNeverSeesAStop :
    (present (bench full7 max64 1#64) 0x00000008#32).Inv ∧
    (present (bench full7 max64 1#64) 0x00000008#32).fault = none ∧
    ({ present (bench full7 max64 1#64) 0x00000008#32 with
      script := [{ HostPins.idle with cmdValid := true }] } : State).HostDutiful := by
  refine ⟨(bench_inv full7 max64 1#64 _ ⟨by decide, by decide⟩ (by decide)).1, rfl, ?_⟩
  intro p hp
  simp only [List.mem_cons, List.not_mem_nil, or_false] at hp
  rcases hp with rfl | rfl
  · intro _ i hi
    obtain rfl : Instr.div1F = i := by
      have h : decode 0x00000008#32 = .command .div1F := by decide
      exact Decoded.command.inj (h.symm.trans hi)
    exact ⟨by decide, fun _ => by decide⟩
  · intro _ i hi
    have h : decode 0x00000000#32 = .illegal .reservedOp := by decide
    exact absurd (h.symm.trans hi) (by simp)

theorem witness_FaultExactlyOnDivisorZero :
    exec (.constructF 3) (bench .uninitialized 0#64 0#64) = .fault .divisorZero ∧
    exec .mod1 (bench full7 max64 0#64) = .fault .divisorZero ∧
    (Instr.div 3).slot? = some 3 ∧ (undefinedBench .idle).slotAt 3 = some .noValue ∧
    (bench full7 0#64 0#64).slotAt 3 ≠ some .noValue ∧
    Instr.release 3 ∈ [Instr.release 3, .getdiv 3, .div 3, .mod 3, .divmod 3] :=
  ⟨rfl, rfl, by decide⟩

/-- DIV1.L by 0 is accepted; after it a command is presented, and then rst. -/
theorem witness_UndefinedCommandLastsUntilReset :
    ((present (bench full7 max64 0#64) 0x00000018#32).moment = .accepted 0x00000018#32 ∧
      decode 0x00000018#32 = .command .div1L ∧
      exec .div1L (present (bench full7 max64 0#64) 0x00000018#32) = .fault .divisorZero) ∧
    ((undefinedBench .idle).Inv ∧ (undefinedBench .idle).fault = some .divisorZero ∧
      ({ HostPins.idle with cmdValid := true, cmdWord := 0x00000003#32 } : HostPins).rst = false) ∧
    (undefinedBench { HostPins.idle with rst := true }).fault.isSome = true ∧
    ∃ t, step (undefinedBench { HostPins.idle with rst := true }) = .next t :=
  ⟨⟨by decide, by decide, rfl⟩, ⟨undefinedBench_inv .idle, by decide, by decide⟩, by decide, _, rfl⟩

theorem witness_StatusesComeInTheirPriority :
    (present (bench lean7 0#64 0#64) 0x00000F07#32).moment = .accepted 0x00000F07#32 ∧
    decode 0x00000F07#32 = .illegal .reservedOp ∧
    decode 0x00000404#32 = .command (.div 4) ∧ (Instr.div 4).slot? = some 4 ∧ (bench lean7 0#64 0#64).nslots ≤ 4 ∧
    decode 0x00000311#32 = .command (.constructL 3) ∧ isConstruct (.constructL 3) = true ∧
    (bench lean7 0#64 0#64).slotAt 3 = some lean7 ∧
    decode 0x00000005#32 = .command (.mod 0) ∧ isConstruct (.mod 0) = false ∧
    (bench lean7 0#64 0#64).slotAt 0 = some .uninitialized ∧
    decode 0x00000305#32 = .command (.mod 3) ∧ needsFullSlot (.mod 3) = true ∧
    decode 0x00000304#32 = .command (.div 3) ∧ preambleStatus (.div 3) 3 (bench lean7 0#64 0#64) = some .ok ∧
    decode 0x00000008#32 = .command .div1F ∧ Instr.div1F.slot? = none := by decide

/-- One error of every kind that exec raises. -/
theorem witness_ErrorsChangeNothingAndReadNoOperand :
    exec (.mod 4) (bench lean7 0#64 0#64) = .next ((bench lean7 0#64 0#64).offer ⟨.eRange, none, none⟩) ∧
    exec (.mod 2) (bench lean7 0#64 0#64) = .next ((bench lean7 0#64 0#64).offer ⟨.eUninit, none, none⟩) ∧
    exec (.constructL 3) (bench lean7 0#64 0#64) = .next ((bench lean7 0#64 0#64).offer ⟨.eBusy, none, none⟩) ∧
    exec (.mod 3) (bench lean7 0#64 0#64) = .next ((bench lean7 0#64 0#64).offer ⟨.eNomod, none, none⟩) ∧
    Status.eRange ≠ .ok ∧ Status.eUninit ≠ .ok ∧ Status.eBusy ≠ .ok ∧ Status.eNomod ≠ .ok :=
  ⟨rfl, rfl, rfl, rfl, by decide⟩

theorem witness_RangeStatusExactlyPastNslots :
    exec (.div 4) (bench full7 0#64 0#64) = .next ((bench full7 0#64 0#64).offer ⟨.eRange, none, none⟩) ∧
    (Instr.div 15).WellFormed ∧ (State.resetFor 16).nslots = 16 ∧
    Instr.mod1 ∈ [Instr.div1F, .div1L, .mod1, .divmod1] ∧ (bench full7 0#64 0#64).nslots = 4 :=
  ⟨rfl, by decide, by decide, by decide, by decide⟩

theorem witness_UninitStatusExactlyOnEmptySlots : (1 ≤ 1 ∧ 1 ≤ 16 : Prop) := by decide

theorem witness_BusyStatusExactlyOnConstructedSlots :
    (bench lean7 0#64 0#64).slotAt 3 = some lean7 ∧ (bench full1 0#64 0#64).slotAt 3 = some full1 ∧
    (bench .uninitialized 0#64 0#64).slotAt 3 = some .uninitialized := by decide

theorem witness_NomodStatusExactlyOnLeanSlots : (bench lean7 0#64 0#64).slotAt 1 = some .uninitialized := by decide

theorem witness_StatusCodesAreZeroToFive : (pending (bench full7 0#64 0#64)).rspStatus = some 0#3 := by decide

theorem witness_ResultFieldsDrivenExactlyWhenTheyExist :
    ((pending (bench full7 0#64 0#64)).rsp = some ⟨.ok, some 14#64, none⟩ ∧
      (pending (bench full7 0#64 0#64)).pins.rst = false ∧ (pending (bench full7 0#64 0#64)).fault = none ∧
      (pending (bench full7 0#64 0#64)).rspValid = some true ∧
      (undefinedBench .idle).rspValid ≠ some true ∧
      (bench full7 0#64 0#64).rsp = none ∧ (bench full7 0#64 0#64).fault = none ∧
      (undefinedBench { HostPins.idle with rst := true }).pins.rst = true) ∧
    (∃ t r, exec (.divmod 3) (bench full7 max64 0#64) = .next t ∧ t.rsp = some r ∧ r.status = .ok ∧
      hasSecondResult (.divmod 3) = true) ∧
    (∃ t r, exec (.div 3) (bench lean7 max64 0#64) = .next t ∧ t.rsp = some r ∧ r.status = .ok ∧
      hasFirstResult (.div 3) = true ∧ hasSecondResult (.div 3) = false) ∧
    (∃ t r, exec (.release 3) (bench lean7 0#64 0#64) = .next t ∧ t.rsp = some r ∧
      hasFirstResult (.release 3) = false) :=
  ⟨by decide, ⟨_, _, rfl, rfl, rfl, rfl⟩, ⟨_, _, rfl, rfl, rfl, rfl, rfl⟩, ⟨_, _, rfl, rfl, rfl⟩⟩

theorem witness_CommandsWriteAtMostTheNamedSlot :
    (∃ t, exec (.constructF 3) (bench .uninitialized 1#64 0#64) = .next t ∧ (Instr.constructF 3).slot? ≠ some 2) ∧
    (∃ t, exec (.divmod 3) (bench full7 max64 0#64) = .next t ∧ readsOnly (.divmod 3) = true) ∧
    (∃ t, exec .div1L (bench full7 max64 max64) = .next t ∧ readsOnly .div1L = true ∧ Instr.div1L.slot? ≠ some 0) :=
  ⟨⟨_, rfl, by decide⟩, ⟨_, rfl, by decide⟩, ⟨_, rfl, by decide, by decide⟩⟩

/-- Two states that agree on slot 3 and differ in slot 0. -/
theorem witness_CommandsReadAtMostTheNamedSlot :
    ((bench full7 max64 0#64).setSlot 0 lean1).pins = (bench full7 max64 0#64).pins ∧
    ((bench full7 max64 0#64).setSlot 0 lean1).slotAt 3 = (bench full7 max64 0#64).slotAt 3 ∧
    ((bench full7 max64 0#64).setSlot 0 lean1).slots ≠ (bench full7 max64 0#64).slots ∧
    ∃ t, exec (.mod 3) ((bench full7 max64 0#64).setSlot 0 lean1) = .next t :=
  ⟨by decide, by decide, by decide, _, rfl⟩

/-- DIV uses OPA and ignores OPB; RELEASE ignores both; DIV1.F uses both and faults on OPB = 0. -/
theorem witness_UnusedOperandsAreIgnored :
    usesPort (.div 3) .opa ∧ ¬ usesPort (.div 3) .opb ∧
    (∃ t, exec (.div 3) (bench full7 max64 0#64) = .next t) ∧
    ¬ usesPort (.release 3) .opa ∧ ¬ usesPort (.release 3) .opb ∧
    exec .div1F (bench full7 max64 0#64) = .fault .divisorZero :=
  ⟨by simp [usesPort, divisorPort, dividendPort], by simp [usesPort, divisorPort, dividendPort], ⟨_, rfl⟩,
    by simp [usesPort, divisorPort, dividendPort], by simp [usesPort, divisorPort, dividendPort], rfl⟩

theorem witness_ConstructedDividerLastsUntilReleaseOrReset :
    (∃ t, exec (.constructF 3) (bench .uninitialized max64 0#64) = .next t ∧ t.rsp = some ⟨.ok, none, none⟩) ∧
    (∃ t, exec (.constructL 3) (bench .uninitialized 1#64 0#64) = .next t ∧ t.rsp = some ⟨.ok, none, none⟩) ∧
    (∃ t, (present (bench lean7 0#64 0#64) 0x00000311#32).slotAt 3 = some lean7 ∧
      step (present (bench lean7 0#64 0#64) 0x00000311#32) = .next t ∧ t.slotAt 3 = some lean7) ∧
    (∃ t, step (present (bench lean7 0#64 0#64) 0x00000302#32) = .next t ∧ t.slotAt 3 = some .uninitialized) ∧
    (∃ t, step (present (bench lean7 0#64 0#64) 0x00000008#32) = .next t ∧ t.slotAt 3 = some .noValue) :=
  ⟨⟨_, rfl, rfl⟩, ⟨_, rfl, rfl⟩, ⟨_, by decide, rfl, by decide⟩, ⟨_, rfl, by decide⟩, ⟨_, rfl, by decide⟩⟩

/-- CONSTRUCT.F of the largest divisor and CONSTRUCT.L of the smallest (96 section 1.1 and 1.2, end states). -/
theorem witness_OnlyConstructMakesADivider :
    (∃ t, (present (bench .uninitialized max64 0#64) 0x00000301#32).slotAt 3 = some .uninitialized ∧
      step (present (bench .uninitialized max64 0#64) 0x00000301#32) = .next t ∧ t.slotAt 3 = some fullMax) ∧
    (∃ t, (present (bench .uninitialized 1#64 0#64) 0x00000311#32).slotAt 3 = some .uninitialized ∧
      step (present (bench .uninitialized 1#64 0#64) 0x00000311#32) = .next t ∧ t.slotAt 3 = some lean1) :=
  ⟨⟨_, by decide, rfl, by decide⟩, ⟨_, by decide, rfl, by decide⟩⟩

/-- DIVMOD of slot 3 and DIV1.F, in this order. -/
theorem witness_ReadingCommandsCommute :
    readsOnly (.divmod 3) = true ∧ readsOnly .div1F = true ∧
    ∃ t u, exec (.divmod 3) ((bench full7 0#64 0#64).withOperands max64 0#64) = .next t ∧
      exec .div1F (t.withOperands 100#64 7#64) = .next u :=
  ⟨by decide, by decide, _, _, rfl, rfl⟩

/-- The four cases of CONSTRUCT, for both variants: the range at NSLOTS, a busy slot, the divisor 0 and the
smallest divisor. -/
theorem witness_ConstructFullStoresTheDivider :
    (bench full7 0#64 0#64).nslots ≤ 4 ∧ (bench full7 0#64 0#64).slotAt 3 = some full7 ∧
    (bench .uninitialized 0#64 0#64).slotAt 3 = some .uninitialized ∧
    (bench .uninitialized 0#64 0#64).operand .opa = 0#64 ∧
    (bench .uninitialized 1#64 0#64).slotAt 3 = some .uninitialized ∧
    (bench .uninitialized 1#64 0#64).operand .opa ≠ 0#64 := by decide

theorem witness_ConstructLeanStoresTheNegatedDivisor :
    (bench lean7 0#64 0#64).nslots ≤ 4 ∧ (bench lean7 0#64 0#64).slotAt 3 = some lean7 ∧
    (bench .uninitialized 0#64 0#64).slotAt 0 = some .uninitialized ∧
    (bench .uninitialized 0#64 0#64).operand .opa = 0#64 ∧
    (bench .uninitialized max64 0#64).slotAt 0 = some .uninitialized ∧
    (bench .uninitialized max64 0#64).operand .opa ≠ 0#64 := by decide

theorem witness_ReleaseEndsTheDivider :
    (bench lean1 0#64 0#64).nslots ≤ 4 ∧ (bench lean1 0#64 0#64).slotAt 0 = some .uninitialized ∧
    (bench lean1 0#64 0#64).slotAt 3 = some lean1 ∧ max64 ≠ 0#64 ∧
    Instr.constructL 3 ∈ [Instr.constructF 3, .constructL 3] := by decide

theorem witness_GetdivReturnsTheDivisor :
    (bench full1 0#64 0#64).nslots ≤ 4 ∧ (bench full1 0#64 0#64).slotAt 2 = some .uninitialized ∧
    (bench full1 0#64 0#64).slotAt 3 = some (.constructed ⟨.full, 1#64, max64⟩) ∧
    (bench leanMax 0#64 0#64).slotAt 3 = some (.constructed ⟨.lean, 1#64, 1#64⟩) ∧
    (∃ t, exec (.constructF 3) (bench .uninitialized max64 0#64) = .next t ∧ t.rsp = some ⟨.ok, none, none⟩) ∧
    (∃ t, exec (.constructL 3) (bench .uninitialized 1#64 0#64) = .next t ∧ t.rsp = some ⟨.ok, none, none⟩) :=
  ⟨by decide, by decide, by decide, by decide, ⟨_, rfl, rfl⟩, ⟨_, rfl, rfl⟩⟩

/-- For DIV, MOD and DIVMOD: the range at NSLOTS, an empty slot, and the smallest and largest divisor under either
variant, consistent. -/
theorem witness_DivIsTheFloorQuotient :
    (bench full1 max64 0#64).nslots ≤ 4 ∧ (bench full1 max64 0#64).slotAt 2 = some .uninitialized ∧
    (bench full1 max64 0#64).slotAt 3 = some (.constructed ⟨.full, 1#64, max64⟩) ∧
    (bench leanMax max64 0#64).slotAt 3 = some (.constructed ⟨.lean, 1#64, 1#64⟩) ∧
    Divider.Consistent ⟨.full, 1#64, max64⟩ ∧ Divider.Consistent ⟨.lean, 1#64, 1#64⟩ := by decide

theorem witness_ModIsTheRemainder :
    (bench fullMax 0#64 0#64).nslots ≤ 4 ∧ (bench fullMax 0#64 0#64).slotAt 0 = some .uninitialized ∧
    (bench lean1 0#64 0#64).slotAt 3 = some (.constructed ⟨.lean, max64, max64⟩) ∧
    (bench fullMax 0#64 0#64).slotAt 3 = some (.constructed ⟨.full, max64, 1#64⟩) ∧
    Divider.Consistent ⟨.full, max64, 1#64⟩ := by decide

theorem witness_DivmodIsQuotientAndRemainder :
    (bench full1 0#64 0#64).nslots ≤ 4 ∧ (bench full1 0#64 0#64).slotAt 1 = some .uninitialized ∧
    (bench leanMax 0#64 0#64).slotAt 3 = some (.constructed ⟨.lean, 1#64, 1#64⟩) ∧
    (bench full1 0#64 0#64).slotAt 3 = some (.constructed ⟨.full, 1#64, max64⟩) ∧
    Divider.Consistent ⟨.full, 1#64, max64⟩ := by decide

/-- The one-shot statements: a divisor of 0, and the smallest and largest that is not 0. -/
theorem witness_OneShotFullDivideIsTheFloorQuotient :
    (bench full7 0#64 0#64).operand .opb = 0#64 ∧ (bench full7 max64 1#64).operand .opb ≠ 0#64 := by decide
theorem witness_OneShotLeanDivideIsTheFloorQuotient :
    (bench full7 max64 0#64).operand .opb = 0#64 ∧ (bench full7 0#64 max64).operand .opb ≠ 0#64 := by decide
theorem witness_OneShotModuloIsTheRemainder :
    (bench full7 max64 0#64).operand .opb = 0#64 ∧ (bench full7 max64 max64).operand .opb ≠ 0#64 := by decide
theorem witness_OneShotDivmodIsQuotientAndRemainder :
    (bench full7 max64 0#64).operand .opb = 0#64 ∧ (bench full7 0#64 1#64).operand .opb ≠ 0#64 := by decide

theorem witness_OneShotEqualsConstructThenSlotCommand :
    (bench full7 0#64 0#64).slotAt 0 = some .uninitialized ∧ 1#64 ≠ 0#64 ∧
    (bench .uninitialized 0#64 0#64).slotAt 3 = some .uninitialized ∧ max64 ≠ 0#64 ∧
    (Instr.div1L, Instr.constructL 3, Instr.div 3) ∈
      [(Instr.div1F, Instr.constructF 3, Instr.div 3), (.mod1, .constructF 3, .mod 3),
        (.divmod1, .constructF 3, .divmod 3), (.div1L, .constructL 3, .div 3)] := by decide

theorem witness_SlotAndOneShotResultsAgree :
    7#64 ≠ 0#64 ∧ (bench full7 max64 7#64).operand .opa = max64 ∧ (bench full7 max64 7#64).operand .opb = 7#64 ∧
    (bench full7 max64 7#64).slotAt 3 = some (.constructed ⟨.full, 7#64, 0x2492492492492492#64⟩) ∧
    Divider.Consistent ⟨.full, 7#64, 0x2492492492492492#64⟩ ∧
    Divider.divisor ⟨.full, 7#64, 0x2492492492492492#64⟩ = 7#64 := by decide

/-- The clauses for D = 1, for a power of two and for a D that is none, and an ordered pair. -/
theorem witness_MagicConstantClosedForm :
    1#64 ≠ 0#64 ∧ (1#64 : Word).toNat = 1 ∧ 2#64 ≠ 0#64 ∧ 2 ≤ (2#64 : Word).toNat ∧
    (2#64 : Word).toNat = 2 ^ 1 ∧ 2 ≤ max64.toNat ∧ 2 ^ 63 < max64.toNat ∧
    (1#64 : Word).toNat ≤ max64.toNat := by decide

theorem witness_MagicMeetsTheApplicatorsDemands : 1#64 ≠ 0#64 ∧ max64 ≠ 0#64 := by decide

/-- A magic constant one below the closed form also meets the demands (D = 2: M = 2^63 − 1, shortfall 2). The two
cases of the estimate: 95 section 4 rows 1 and 4. -/
theorem witness_EstimateIsLowByAtMostOne :
    (2#64 ≠ 0#64 ∧ (0x7FFFFFFFFFFFFFFF#64 : Word).toNat * (2#64 : Word).toNat ≤ 2 ^ 64 ∧
      2 ^ 64 - (0x7FFFFFFFFFFFFFFF#64 : Word).toNat * (2#64 : Word).toNat ≤ (2#64 : Word).toNat) ∧
    (estimate 100#64 0x2492492492492492#64).toNat = (100#64 : Word).toNat / (7#64 : Word).toNat ∧
    (estimate 0x3039#64 max64).toNat + 1 = (0x3039#64 : Word).toNat / (1#64 : Word).toNat := by decide

theorem witness_FullApplicatorIsExact :
    max64 ≠ 0#64 ∧ (1#64 : Word).toNat * max64.toNat ≤ 2 ^ 64 ∧
    2 ^ 64 - (1#64 : Word).toNat * max64.toNat ≤ max64.toNat := by decide

theorem witness_LeanApplicatorIsExactAndEqualsTheFullOne :
    1#64 ≠ 0#64 ∧ max64.toNat * (1#64 : Word).toNat ≤ 2 ^ 64 ∧
    2 ^ 64 - max64.toNat * (1#64 : Word).toNat ≤ (1#64 : Word).toNat := by decide

/-- L = 63, L = 1 and L = 0 (95 section 3.1). -/
theorem witness_SeedApproximatesTheReciprocal :
    1#64 ≠ 0#64 ∧ clz64 1#64 = 63 ∧ 0x4000000000000000#64 ≠ 0#64 ∧ clz64 0x4000000000000000#64 = 1 ∧
    max64 ≠ 0#64 ∧ clz64 max64 = 0 := by decide

/-- 95 section 3.1: c0 of D = 641, and D = 2^62, where a round is the identity. -/
theorem witness_RoundSquaresTheError :
    (0x281#64 ≠ 0#64 ∧ 1 ≤ (0x0057F00000000000#64 : Word).toNat ∧
      (0x0057F00000000000#64 : Word).toNat * (0x281#64 : Word).toNat ≤ 2 ^ 64) ∧
    (0x4000000000000000#64 ≠ 0#64 ∧ 1 ≤ (3#64 : Word).toNat ∧
      (3#64 : Word).toNat * (0x4000000000000000#64 : Word).toNat ≤ 2 ^ 64 ∧
      (3#64 : Word).toNat * (residualOf 0x4000000000000000#64 3#64).toNat < 2 ^ 64) := by decide

theorem witness_FiveRoundsEndAtMostTwoLow : 1#64 ≠ 0#64 ∧ max64 ≠ 0#64 := by decide

/-- An increment (D = 2), a saturated candidate (D = 1) and none (D = MAX64). -/
theorem witness_FixUpRealisationsAreOneFunction :
    2#64 ≠ 0#64 ∧ (2#64 : Word).toNat ≤ (residualOf 2#64 0x7FFFFFFFFFFFFFFF#64).toNat ∧
    1#64 ≠ 0#64 ∧ (1#64 : Word).toNat ≤ (residualOf 1#64 max64).toNat ∧ max64.toNat = 2 ^ 64 - 1 ∧
    max64 ≠ 0#64 ∧ (residualOf max64 1#64).toNat < max64.toNat ∧
    1 ≤ (0x7FFFFFFFFFFFFFFF#64 : Word).toNat ∧
    (0x7FFFFFFFFFFFFFFF#64 : Word).toNat * (2#64 : Word).toNat ≤ 2 ^ 64 := by decide

theorem witness_SolverDatapathComputesTheClosedForm : 1#64 ≠ 0#64 ∧ max64 ≠ 0#64 := by decide

end Sys2Proof.Tests
end

/-! PROOFS. The statements of 00_scope.md: NSLOTS is kept by every step (R4, R20), the reset state meets the
invariant (R4, R31), and the four-partial-product multiply (R7). -/

namespace Sys2Proof.Machine

/-! ### NSLOTS (R4, R20) -/

/-- A command writes at most one slot in place, so it neither adds nor removes one. -/
theorem exec_next_nslots {i : Instr} {s t : State} (h : exec i s = .next t) : t.nslots = s.nslots := by
  rcases exec_next_cases h with ⟨r, rfl⟩ | ⟨k, v, -, -, -, rfl⟩ | ⟨k, d, -, -, rfl⟩
  · exact s.offer_nslots r
  · simp only [State.offer_nslots, State.setSlot_nslots]
  · simp only [State.offer_nslots, State.setSlot_nslots]

/-- Reset and a recorded fault rewrite every slot where it stands; every other step ends as a command does, or leaves
the slots alone. -/
theorem step_next_nslots {s t : State} (h : step s = .next t) : t.nslots = s.nslots := by
  obtain ⟨u, rfl, hu⟩ := step_next_cases h
  rw [State.hostMoves_nslots]
  rcases hu with ⟨-, rfl⟩ | ⟨-, rfl⟩ | ⟨-, rfl⟩ | ⟨w, why, -, -, rfl⟩ | ⟨w, i, -, -, he⟩ | ⟨w, i, f, -, -, -, rfl⟩
  · exact s.applyReset_nslots
  · exact s.dropResponse_nslots
  · rfl
  · exact s.offer_nslots _
  · exact exec_next_nslots he
  · exact s.recordFault_nslots f

/-- Settles O16, by the cases of a step that goes on. -/
theorem everyStepKeepsNslots : Obligations.EveryStepKeepsNslots :=
  fun _ _ h => step_next_nslots h

/-! ### The reset state (R31) -/

@[simp] theorem State.resetFor_rsp (n : Nat) : (State.resetFor n).rsp = none := rfl
@[simp] theorem State.resetFor_fault (n : Nat) : (State.resetFor n).fault = none := rfl

theorem State.eq_uninitialized_of_mem_resetFor {n : Nat} {x : Slot} (h : x ∈ (State.resetFor n).slots) :
    x = .uninitialized :=
  List.eq_of_mem_replicate h

/-- Reset leaves nothing that the invariant restricts: no Constructed slot, no response, no fault. -/
theorem State.resetFor_inv {n : Nat} (hpos : 1 ≤ n) (hle : n ≤ Config.maxSlots) : (State.resetFor n).Inv where
  nslots_pos := by simpa using hpos
  nslots_le := by simpa using hle
  slots_ok x hx := by
    rw [State.eq_uninitialized_of_mem_resetFor hx]
    trivial
  rsp_ok r hr := by simp at hr
  valued _ x hx := by simp [State.eq_uninitialized_of_mem_resetFor hx]
  valueless f hf := by simp at hf

/-- Settles O9: the general reset state, of which the default one is the case of 4 slots. -/
theorem resetStateMeetsTheInvariant : Obligations.ResetStateMeetsTheInvariant :=
  ⟨fun _ hpos hle => State.resetFor_inv hpos hle,
    State.resetFor_inv (n := Config.defaultSlots) (by decide) (by decide)⟩

/-! ### The four-partial-product multiply (R7) -/

theorem low32_lt (n : Nat) : low32 n < 2 ^ 32 := Nat.mod_lt n (by decide)

theorem high32_lt {n : Nat} (h : n < 2 ^ 64) : high32 n < 2 ^ 32 := Nat.div_lt_of_lt_mul h

theorem low32_add_high32 (n : Nat) : low32 n + 2 ^ 32 * high32 n = n := Nat.mod_add_div n (2 ^ 32)

/-- The product of two 32-bit values fits 64 bits. -/
theorem partialProduct_lt {x y : Nat} (hx : x < 2 ^ 32) (hy : y < 2 ^ 32) : x * y < 2 ^ 64 :=
  calc x * y < 2 ^ 32 * 2 ^ 32 := Nat.mul_lt_mul'' hx hy
    _ = 2 ^ 64 := by norm_num

section Columns
variable (a b : Word)

/-- The columns from bit 64 up, whose sum is the high half. -/
def highColumns : Nat :=
  high32 a.toNat * high32 b.toNat + high32 (low32 a.toNat * high32 b.toNat)
    + high32 (high32 a.toNat * low32 b.toNat) + high32 (midColumn a b)

/-- The two columns below bit 64, side by side. -/
def lowColumns : Nat := low32 (midColumn a b) * 2 ^ 32 + low32 (low32 a.toNat * low32 b.toNat)

theorem mulhiFromParts_eq_highColumns : mulhiFromParts a b = BitVec.ofNat 64 (highColumns a b) := rfl

theorem mulloFromParts_eq_lowColumns : mulloFromParts a b = BitVec.ofNat 64 (lowColumns a b) := rfl

/-- The middle column adds three 32-bit values. -/
theorem midColumn_lt : midColumn a b < 3 * 2 ^ 32 := by
  have hll := high32_lt (partialProduct_lt (low32_lt a.toNat) (low32_lt b.toNat))
  have hlh := low32_lt (low32 a.toNat * high32 b.toNat)
  have hhl := low32_lt (high32 a.toNat * low32 b.toNat)
  unfold midColumn
  omega

theorem lowColumns_lt : lowColumns a b < 2 ^ 64 := by
  have hmid := low32_lt (midColumn a b)
  have hll := low32_lt (low32 a.toNat * low32 b.toNat)
  unfold lowColumns
  omega

/-- The schoolbook product of two values split at bit 32. -/
theorem mul_eq_partialProducts (x y : Nat) :
    x * y = low32 x * low32 y + 2 ^ 32 * (low32 x * high32 y + high32 x * low32 y)
      + 2 ^ 64 * (high32 x * high32 y) := by
  calc x * y = (low32 x + 2 ^ 32 * high32 x) * (low32 y + 2 ^ 32 * high32 y) := by
        rw [low32_add_high32, low32_add_high32]
    _ = _ := by ring

/-- The columns hold the whole product: each partial product is cut at bit 32, and what the middle column carries
out of its 32 bits goes to the high columns. -/
theorem mul_eq_columns : a.toNat * b.toNat = lowColumns a b + 2 ^ 64 * highColumns a b := by
  have hll := low32_add_high32 (low32 a.toNat * low32 b.toNat)
  have hlh := low32_add_high32 (low32 a.toNat * high32 b.toNat)
  have hhl := low32_add_high32 (high32 a.toNat * low32 b.toNat)
  have hmid := low32_add_high32 (midColumn a b)
  have hcol : midColumn a b = high32 (low32 a.toNat * low32 b.toNat)
    + low32 (low32 a.toNat * high32 b.toNat) + low32 (high32 a.toNat * low32 b.toNat) := rfl
  rw [mul_eq_partialProducts, lowColumns, highColumns]
  omega

theorem mulhiFromParts_eq_mulhi : mulhiFromParts a b = mulhi a b := by
  rw [mulhiFromParts_eq_highColumns, mulhi, mul_eq_columns, Nat.add_mul_div_left _ _ (by decide),
    Nat.div_eq_of_lt (lowColumns_lt a b), Nat.zero_add]

theorem mulloFromParts_eq_mullo : mulloFromParts a b = mullo a b := by
  apply BitVec.eq_of_toNat_eq
  rw [mulloFromParts_eq_lowColumns, mullo_toNat, mul_eq_columns, Nat.add_mul_mod_self_left, BitVec.toNat_ofNat]

end Columns

/-- Settles O47: the bounds from the 32-bit halves, the two results from the columns. -/
theorem fourPartialProductsMultiply : Obligations.FourPartialProductsMultiply := by
  intro a b
  have hal := low32_lt a.toNat
  have hbl := low32_lt b.toNat
  have hah := high32_lt a.isLt
  have hbh := high32_lt b.isLt
  exact ⟨⟨partialProduct_lt hal hbl, partialProduct_lt hal hbh, partialProduct_lt hah hbl,
      partialProduct_lt hah hbh⟩, midColumn_lt a b, mulhiFromParts_eq_mulhi a b,
    mulloFromParts_eq_mullo a b⟩

end Sys2Proof.Machine

/-! PROOFS. The statements of 10_state.md: the reset state (R31, R160), the frame of a command and what it reads
(R20, R120), the life of a divider (R21 to R26), and the invariant of every step (R26, R60, R146). -/

namespace Sys2Proof.Machine

/-! ### The reset state (R31, R160) -/

@[simp] theorem State.resetFor_rst (n : Nat) : (State.resetFor n).pins.rst = false := rfl

theorem State.resetFor_slotAt {n k : Nat} (h : k < n) : (State.resetFor n).slotAt k = some .uninitialized :=
  List.getElem?_replicate_of_lt h

/-- Out of reset and with no fault recorded, a handshake output is its value (R50, R51). -/
theorem State.handshake_eq_some {s : State} (hrst : s.pins.rst = false) (hf : s.fault = none) (v : Bool) :
    s.handshake v = some v := by
  simp [State.handshake, hrst, hf]

/-- Settles O8: the slots are read off the replicated list, the outputs off a state without reset, fault and
response. -/
theorem resetStateIsEmptyAndReady : Obligations.ResetStateIsEmptyAndReady :=
  ⟨fun _ _ h => State.resetFor_slotAt h,
    fun n => ⟨State.resetFor_nslots n, State.resetFor_rsp n, State.resetFor_fault n,
      State.handshake_eq_some (State.resetFor_rst n) (State.resetFor_fault n) _,
      State.handshake_eq_some (State.resetFor_rst n) (State.resetFor_fault n) _⟩,
    rfl⟩

/-! ### The frame of a command (R20, R43) -/

/-- A command that goes on offers a response, and touches neither the host's side nor the recorded fault. -/
theorem exec_next_frame {i : Instr} {s t : State} (h : exec i s = .next t) :
    t.pins = s.pins ∧ t.script = s.script ∧ t.fault = s.fault ∧ ∃ r, t.rsp = some r := by
  rcases exec_next_cases h with ⟨r, rfl⟩ | ⟨k, v, -, -, -, rfl⟩ | ⟨k, d, -, -, rfl⟩
  · exact ⟨rfl, rfl, rfl, r, rfl⟩
  · exact ⟨rfl, rfl, rfl, _, rfl⟩
  · exact ⟨rfl, rfl, rfl, _, rfl⟩

/-- A reading command is no CONSTRUCT and no RELEASE, so it ends as the state it found with a response offered. -/
theorem exec_next_slots_of_readsOnly {i : Instr} {s t : State} (hi : readsOnly i = true)
    (h : exec i s = .next t) : t.slots = s.slots := by
  rcases exec_next_cases h with ⟨r, rfl⟩ | ⟨k, v, ⟨rfl, -⟩ | ⟨rfl, -⟩, -⟩ | ⟨k, d, rfl, -⟩
  · rfl
  · simp [readsOnly] at hi
  · simp [readsOnly] at hi
  · simp [readsOnly] at hi

/-- What a command can do to slot `j`: keep it, construct a divider in it (R101, R133), or release it (R102). -/
theorem exec_next_slotAt_cases {i : Instr} {s t : State} (h : exec i s = .next t) (j : Nat) :
    t.slotAt j = s.slotAt j
    ∨ (∃ v, (i = .constructF j ∧ v = .full ∨ i = .constructL j ∧ v = .lean)
        ∧ s.slotAt j = some .uninitialized ∧ s.operand .opa ≠ 0#64
        ∧ t.slotAt j = some (.constructed (newDivider v (s.operand .opa))))
    ∨ (i = .release j ∧ t.slotAt j = some .uninitialized) := by
  rcases exec_next_cases h with ⟨r, rfl⟩ | ⟨k, v, hi, hs, h0, rfl⟩ | ⟨k, d, rfl, hs, rfl⟩
  · exact .inl rfl
  · by_cases hkj : k = j
    · subst hkj
      exact .inr (.inl ⟨v, hi, hs, h0, s.setSlot_slotAt_self k _ (s.slotAt_lt k _ hs)⟩)
    · exact .inl (s.setSlot_slotAt_ne k j _ hkj)
  · by_cases hkj : k = j
    · subst hkj
      exact .inr (.inr ⟨rfl, s.setSlot_slotAt_self k _ (s.slotAt_lt k _ hs)⟩)
    · exact .inl (s.setSlot_slotAt_ne k j _ hkj)

theorem exec_next_slotAt_of_not_named {i : Instr} {s t : State} {j : Nat} (hj : i.slot? ≠ some j)
    (h : exec i s = .next t) : t.slotAt j = s.slotAt j := by
  rcases exec_next_slotAt_cases h j with hkeep | ⟨v, ⟨rfl, -⟩ | ⟨rfl, -⟩, -⟩ | ⟨rfl, -⟩
  · exact hkeep
  · exact absurd rfl hj
  · exact absurd rfl hj
  · exact absurd rfl hj

/-- Settles O28: the frame, NSLOTS, and what a command can do to each slot. -/
theorem commandsWriteAtMostTheNamedSlot : Obligations.CommandsWriteAtMostTheNamedSlot := by
  intro i s t h
  obtain ⟨hpins, hscript, hfault, hrsp⟩ := exec_next_frame h
  exact ⟨hpins, hscript, hfault, exec_next_nslots h, hrsp,
    fun _ hj => exec_next_slotAt_of_not_named hj h, fun hi => exec_next_slots_of_readsOnly hi h⟩

/-! ### When a word is accepted (R50) -/

/-- The word accepted is the one on the pins. -/
theorem word_of_accepted {s : State} {w : CmdWord} (hm : s.moment = .accepted w) : w = s.pins.cmdWord := by
  obtain ⟨-, -, -, -, hw⟩ := (moment_accepted_iff s w).1 hm
  exact hw.symm

/-- A word is accepted only while no fault is recorded. -/
theorem fault_eq_none_of_accepted {s : State} {w : CmdWord} (hm : s.moment = .accepted w) : s.fault = none := by
  obtain ⟨-, hf, -⟩ := (moment_accepted_iff s w).1 hm
  exact hf

/-! ### The life of a divider (R21 to R26) -/

/-- The divisor read back from a new divider is the operand: the lean form is negated twice (R24). -/
@[simp] theorem newDivider_divisor (v : Variant) (d : Word) : (newDivider v d).divisor = d := by
  cases v with
  | full => rfl
  | lean => exact neg64_neg64 d

theorem newDivider_consistent (v : Variant) {d : Word} (h : d ≠ 0#64) : (newDivider v d).Consistent :=
  ⟨by rwa [newDivider_divisor], by rw [newDivider_divisor, newDivider_magic]⟩

/-- Both ways a CONSTRUCT can go on: an error status raised, or the free slot written (R101, R133). -/
theorem construct_next_cases {v : Variant} {k : Nat} {s t : State} (h : construct v k s = .next t) :
    (∃ e, e ≠ .ok ∧ t = s.offer ⟨e, none, none⟩)
    ∨ (s.slotAt k = some .uninitialized ∧ s.operand .opa ≠ 0#64
        ∧ t = (s.setSlot k (.constructed (newDivider v (s.operand .opa)))).offer ⟨.ok, none, none⟩) := by
  rcases checkFree_cases k s with ⟨-, hc⟩ | ⟨d, -, hc⟩ | ⟨hs, hc⟩ | ⟨-, hc⟩ <;> rw [construct, hc] at h
  · exact .inl ⟨.eRange, by decide, (Host.Outcome.next.inj h).symm⟩
  · exact .inl ⟨.eBusy, by decide, (Host.Outcome.next.inj h).symm⟩
  · rw [afterChecks_ok] at h
    by_cases h0 : s.operand .opa = 0#64
    · rw [h0, unlessDivisorZero_zero] at h
      contradiction
    · rw [unlessDivisorZero_of_ne h0] at h
      exact .inr ⟨hs, h0, (Host.Outcome.next.inj h).symm⟩
  · contradiction

/-- A CONSTRUCT that answers OK took a divisor that is not 0 and wrote its divider. -/
theorem construct_ok {v : Variant} {k : Nat} {s t : State} (h : construct v k s = .next t)
    (hok : t.rsp = some ⟨.ok, none, none⟩) :
    s.operand .opa ≠ 0#64 ∧ t.slotAt k = some (.constructed (newDivider v (s.operand .opa))) := by
  rcases construct_next_cases h with ⟨e, he, rfl⟩ | ⟨hs, h0, rfl⟩
  · simp [he] at hok
  · exact ⟨h0, s.setSlot_slotAt_self k _ (s.slotAt_lt k _ hs)⟩

/-- What a step can do to slot `j`: keep it, empty it in reset (R160), run a CONSTRUCT or RELEASE of it, or take its
value in an undefined command (R146). -/
theorem step_next_slotAt_cases {s t : State} (h : step s = .next t) (j : Nat) :
    t.slotAt j = s.slotAt j
    ∨ (s.pins.rst = true ∧ t.slotAt j = (s.slotAt j).map (fun _ => .uninitialized))
    ∨ (∃ i, s.moment = .accepted s.pins.cmdWord ∧ decode s.pins.cmdWord = .command i ∧
        ((∃ v, (i = .constructF j ∧ v = .full ∨ i = .constructL j ∧ v = .lean)
            ∧ s.slotAt j = some .uninitialized ∧ s.operand .opa ≠ 0#64
            ∧ t.slotAt j = some (.constructed (newDivider v (s.operand .opa))))
          ∨ (i = .release j ∧ t.slotAt j = some .uninitialized)
          ∨ (exec i s = .fault .divisorZero ∧ t.fault = some .divisorZero
            ∧ t.slotAt j = (s.slotAt j).map (fun _ => .noValue)))) := by
  obtain ⟨u, rfl, hu⟩ := step_next_cases h
  rw [State.hostMoves_slotAt, State.hostMoves_fault]
  rcases hu with ⟨hm, rfl⟩ | ⟨-, rfl⟩ | ⟨-, rfl⟩ | ⟨w, why, -, -, rfl⟩ | ⟨w, i, hm, hd, he⟩ |
    ⟨w, i, ⟨⟩, hm, hd, he, rfl⟩
  · exact .inr (.inl ⟨(moment_inReset_iff s).1 hm, s.applyReset_slotAt j⟩)
  · exact .inl rfl
  · exact .inl rfl
  · exact .inl rfl
  · obtain rfl := word_of_accepted hm
    rcases exec_next_slotAt_cases he j with hkeep | hconstruct | hrelease
    · exact .inl hkeep
    · exact .inr (.inr ⟨i, hm, hd, .inl hconstruct⟩)
    · exact .inr (.inr ⟨i, hm, hd, .inr (.inl hrelease)⟩)
  · obtain rfl := word_of_accepted hm
    exact .inr (.inr ⟨i, hm, hd, .inr (.inr ⟨he, rfl, s.recordFault_slotAt j _⟩)⟩)

/-- Settles O31: the divider an OK CONSTRUCT wrote, and what a step can do to a Constructed slot. -/
theorem constructedDividerLastsUntilReleaseOrReset : Obligations.ConstructedDividerLastsUntilReleaseOrReset := by
  constructor
  · intro i s t k hi h hok
    obtain ⟨v, hc⟩ : ∃ v, construct v k s = .next t := by
      rcases hi with rfl | rfl
      · exact ⟨.full, h⟩
      · exact ⟨.lean, h⟩
    obtain ⟨h0, ht⟩ := construct_ok hc hok
    refine ⟨_, ht, newDivider_divisor v _, ?_, ?_⟩
    · rw [newDivider_divisor]
      exact toNat_pos h0
    · rw [newDivider_divisor, newDivider_magic, magic_toNat]
  · intro s t j d hs h
    rcases step_next_slotAt_cases h j with
      hkeep | ⟨hrst, ht⟩ | ⟨i, hm, hd, ⟨v, -, hfree, -⟩ | ⟨rfl, ht⟩ | ⟨he, hf, ht⟩⟩
    · exact .inl (hkeep.trans hs)
    · exact .inr (.inl ⟨by simpa [hs] using ht, .inl hrst⟩)
    · simp [hs] at hfree
    · exact .inr (.inl ⟨ht, .inr ⟨hm, hd⟩⟩)
    · exact .inr (.inr ⟨by simpa [hs] using ht, hf, i, hm, hd, he⟩)

/-- Settles O32: of the things a step can do to an Uninitialized slot, only a CONSTRUCT of it leaves a divider. -/
theorem onlyConstructMakesADivider : Obligations.OnlyConstructMakesADivider := by
  intro s t j d hs h ht
  rcases step_next_slotAt_cases h j with
    hkeep | ⟨-, hreset⟩ | ⟨i, hm, hd, ⟨v, hi, -, h0, hnew⟩ | ⟨-, hempty⟩ | ⟨-, -, hlost⟩⟩
  · simp [ht, hs] at hkeep
  · simp [ht, hs] at hreset
  · obtain rfl : d = newDivider v (s.operand .opa) := by simpa [ht] using hnew
    refine ⟨hm, h0, magic_toNat _, ?_⟩
    rcases hi with ⟨rfl, rfl⟩ | ⟨rfl, rfl⟩
    · exact .inl ⟨hd, rfl, rfl⟩
    · exact .inr ⟨hd, rfl, neg64_toNat_of_ne h0⟩
  · simp [ht] at hempty
  · simp [ht, hs] at hlost

/-! ### The checks of MOD and DIVMOD (R100) -/

/-- MOD and DIVMOD check as DIV does, and refuse a lean divider before their body (R100). -/
theorem afterChecks_checkFullDivider (k : Nat) (s : State) (body : Divider → Result) :
    afterChecks (checkFullDivider k s) body =
      afterChecks (checkDivider k s) (fun d => if d.var = .lean then raise .eNomod s else body d) := by
  rcases checkDivider_cases k s with ⟨hs, hc⟩ | ⟨hs, hc⟩ | ⟨d, hs, hc⟩ | ⟨hs, hc⟩
  · rw [checkFullDivider_range hs, hc, afterChecks_error, afterChecks_error]
  · rw [checkFullDivider_uninit hs, hc, afterChecks_error, afterChecks_error]
  · rw [hc, afterChecks_ok]
    cases hv : d.var with
    | full => rw [checkFullDivider_ok hs hv, afterChecks_ok, if_neg (by decide)]
    | lean => rw [checkFullDivider_nomod hs hv, afterChecks_error, if_pos rfl, raise_eq]
  · rw [checkFullDivider_noValue hs, hc, afterChecks_error, afterChecks_error]

/-! ### Legal responses (R60, R142) -/

/-- An outcome that goes on with a legal response on the channel, or with none. -/
def LegalAnswer (o : Result) : Prop := ∀ t, o = .next t → ∀ r ∈ t.rsp, r.Legal

theorem legalAnswer_fault (f : Fault) : LegalAnswer (.fault f) := nofun

theorem legalAnswer_offer {r : Response} (h : r.Legal) (s : State) : LegalAnswer (.next (s.offer r)) := by
  rintro _ ⟨⟩ _ ⟨⟩
  exact h

/-- A response that drives no result is legal, whatever its status. -/
theorem Response.legal_bare (e : Status) : Response.Legal ⟨e, none, none⟩ :=
  ⟨fun _ => ⟨rfl, rfl⟩, fun _ => rfl⟩

theorem legalAnswer_raise (e : Status) (s : State) : LegalAnswer (raise e s) :=
  legalAnswer_offer (Response.legal_bare e) s

/-- An OK answer without a result. -/
theorem legalAnswer_done (s : State) : LegalAnswer (respond none none s) :=
  legalAnswer_offer (Response.legal_bare .ok) s

/-- An OK answer with a first result, and with or without a second. -/
theorem legalAnswer_result (a : Word) (b : Option Word) (s : State) : LegalAnswer (respond (some a) b s) :=
  legalAnswer_offer ⟨fun hne => absurd rfl hne, fun hnone => absurd hnone (Option.some_ne_none a)⟩ s

theorem legalAnswer_unlessDivisorZero {body : Result} (h : LegalAnswer body) (d : Word) :
    LegalAnswer (unlessDivisorZero d body) := by
  by_cases h0 : d = 0#64
  · rw [h0, unlessDivisorZero_zero]
    exact legalAnswer_fault _
  · rwa [unlessDivisorZero_of_ne h0]

theorem legalAnswer_checkFree {k : Nat} {s : State} {body : Unit → Result} (h : LegalAnswer (body ())) :
    LegalAnswer (afterChecks (checkFree k s) body) := by
  rcases checkFree_cases k s with ⟨-, hc⟩ | ⟨d, -, hc⟩ | ⟨-, hc⟩ | ⟨-, hc⟩ <;> rw [hc]
  · exact legalAnswer_raise .eRange s
  · exact legalAnswer_raise .eBusy s
  · exact h
  · exact legalAnswer_fault _

theorem legalAnswer_checkDivider {k : Nat} {s : State} {body : Divider → Result}
    (h : ∀ d, LegalAnswer (body d)) : LegalAnswer (afterChecks (checkDivider k s) body) := by
  rcases checkDivider_cases k s with ⟨-, hc⟩ | ⟨-, hc⟩ | ⟨d, -, hc⟩ | ⟨-, hc⟩ <;> rw [hc]
  · exact legalAnswer_raise .eRange s
  · exact legalAnswer_raise .eUninit s
  · exact h d
  · exact legalAnswer_fault _

theorem legalAnswer_checkFullDivider {k : Nat} {s : State} {body : Divider → Result}
    (h : ∀ d, LegalAnswer (body d)) : LegalAnswer (afterChecks (checkFullDivider k s) body) := by
  rw [afterChecks_checkFullDivider]
  refine legalAnswer_checkDivider fun d => ?_
  split
  · exact legalAnswer_raise .eNomod s
  · exact h d

theorem legalAnswer_construct (v : Variant) (k : Nat) (s : State) : LegalAnswer (construct v k s) :=
  legalAnswer_checkFree (legalAnswer_unlessDivisorZero (legalAnswer_done _) _)

theorem legalAnswer_oneShot {s : State} {body : Word → Word → Result} (h : ∀ n d, LegalAnswer (body n d)) :
    LegalAnswer (oneShot s body) :=
  legalAnswer_unlessDivisorZero (h _ _) _

/-- Every command answers legally: an error status drives no result, and a second result comes with a first. -/
theorem exec_legalAnswer (i : Instr) (s : State) : LegalAnswer (exec i s) := by
  cases i with
  | constructF k => exact legalAnswer_construct .full k s
  | constructL k => exact legalAnswer_construct .lean k s
  | release k => exact legalAnswer_checkDivider fun _ => legalAnswer_done _
  | getdiv k => exact legalAnswer_checkDivider fun _ => legalAnswer_result _ _ _
  | div k => exact legalAnswer_checkDivider fun _ => legalAnswer_result _ _ _
  | mod k => exact legalAnswer_checkFullDivider fun _ => legalAnswer_result _ _ _
  | divmod k => exact legalAnswer_checkFullDivider fun _ => legalAnswer_result _ _ _
  | div1F => exact legalAnswer_oneShot fun _ _ => legalAnswer_result _ _ _
  | div1L => exact legalAnswer_oneShot fun _ _ => legalAnswer_result _ _ _
  | mod1 => exact legalAnswer_oneShot fun _ _ => legalAnswer_result _ _ _
  | divmod1 => exact legalAnswer_oneShot fun _ _ => legalAnswer_result _ _ _

/-! ### The invariant of every step -/

/-- The host's move touches nothing the invariant speaks of (log 6). -/
theorem State.Inv.hostMoves {s : State} (h : s.Inv) : s.hostMoves.Inv where
  nslots_pos := by simpa using h.nslots_pos
  nslots_le := by simpa using h.nslots_le
  slots_ok := by simpa using h.slots_ok
  rsp_ok := by simpa using h.rsp_ok
  valued := by simpa using h.valued
  valueless := by simpa using h.valueless

theorem State.Inv.dropResponse {s : State} (h : s.Inv) : s.dropResponse.Inv where
  nslots_pos := h.nslots_pos
  nslots_le := h.nslots_le
  slots_ok := h.slots_ok
  rsp_ok := nofun
  valued := h.valued
  valueless f hf := (h.valueless f hf).imp_right fun _ => rfl

/-- A legal response may be offered while no fault is recorded. -/
theorem State.Inv.offer {s : State} {r : Response} (h : s.Inv) (hf : s.fault = none) (hr : r.Legal) :
    (s.offer r).Inv where
  nslots_pos := h.nslots_pos
  nslots_le := h.nslots_le
  slots_ok := h.slots_ok
  rsp_ok := by simpa using hr
  valued := h.valued
  valueless f hf' := by simp [hf] at hf'

/-- A consistent slot may be written, with its value, while no fault is recorded. -/
theorem State.Inv.setSlot {s : State} {k : Nat} {x : Slot} (h : s.Inv) (hf : s.fault = none)
    (hx : x.Consistent) (hv : x ≠ .noValue) : (s.setSlot k x).Inv where
  nslots_pos := by simpa using h.nslots_pos
  nslots_le := by simpa using h.nslots_le
  slots_ok y hy := by
    rcases List.mem_or_eq_of_mem_set hy with hmem | rfl
    · exact h.slots_ok y hmem
    · exact hx
  rsp_ok := h.rsp_ok
  valued _ y hy := by
    rcases List.mem_or_eq_of_mem_set hy with hmem | rfl
    · exact h.valued hf y hmem
    · exact hv
  valueless f hf' := by simp [hf] at hf'

/-- The reset event leaves no Constructed slot, no response and no fault (R160). -/
theorem State.Inv.applyReset {s : State} (h : s.Inv) : s.applyReset.Inv where
  nslots_pos := by simpa using h.nslots_pos
  nslots_le := by simpa using h.nslots_le
  slots_ok x hx := by
    obtain ⟨-, -, rfl⟩ := List.mem_map.1 hx
    trivial
  rsp_ok := nofun
  valued _ x hx := by
    obtain ⟨-, -, rfl⟩ := List.mem_map.1 hx
    exact nofun
  valueless := nofun

/-- A recorded fault leaves no slot and no response with a value (R146). -/
theorem State.Inv.recordFault {s : State} (h : s.Inv) (f : Fault) : (s.recordFault f).Inv where
  nslots_pos := by simpa using h.nslots_pos
  nslots_le := by simpa using h.nslots_le
  slots_ok x hx := by
    obtain ⟨-, -, rfl⟩ := List.mem_map.1 hx
    trivial
  rsp_ok := nofun
  valued := nofun
  valueless _ _ := ⟨fun x hx => by
    obtain ⟨-, -, rfl⟩ := List.mem_map.1 hx
    rfl, rfl⟩

/-- A command run while no fault is recorded keeps the invariant: its response is legal, and the one slot it may
write holds a new divider of a divisor that is not 0, or nothing. -/
theorem State.Inv.exec_next {i : Instr} {s t : State} (h : s.Inv) (hf : s.fault = none)
    (he : exec i s = .next t) : t.Inv := by
  have hlegal := exec_legalAnswer i s t he
  rcases exec_next_cases he with ⟨r, rfl⟩ | ⟨k, v, -, -, h0, rfl⟩ | ⟨k, d, -, -, rfl⟩
  · exact h.offer hf (hlegal r rfl)
  · exact (h.setSlot (x := .constructed _) hf (newDivider_consistent v h0) nofun).offer hf (hlegal _ rfl)
  · exact (h.setSlot (x := .uninitialized) hf trivial nofun).offer hf (hlegal _ rfl)

/-- Settles O15, by the cases of a step that goes on, each with its own rule. -/
theorem everyStepKeepsTheInvariant : Obligations.EveryStepKeepsTheInvariant := by
  intro s t hinv h
  obtain ⟨u, rfl, hu⟩ := step_next_cases h
  refine State.Inv.hostMoves ?_
  rcases hu with ⟨-, rfl⟩ | ⟨-, rfl⟩ | ⟨-, rfl⟩ | ⟨w, why, hm, -, rfl⟩ | ⟨w, i, hm, -, he⟩ |
    ⟨w, i, f, -, -, -, rfl⟩
  · exact hinv.applyReset
  · exact hinv.dropResponse
  · exact hinv
  · exact hinv.offer (fault_eq_none_of_accepted hm) (Response.legal_bare .eIllegal)
  · exact hinv.exec_next (fault_eq_none_of_accepted hm) he
  · exact hinv.recordFault f

/-! ### What a command reads (R20, R120) -/

/-- Two outcomes no host can tell apart by their fault, their response or the slot `slot?` names. -/
def SameEffect (slot? : Option Nat) (o p : Result) : Prop :=
  faultOf? o = faultOf? p ∧
  ∀ t, o = .next t → ∃ v, p = .next v ∧ v.rsp = t.rsp ∧ ∀ k, slot? = some k → v.slotAt k = t.slotAt k

section SameEffect
variable {s u : State} {k : Nat}

theorem sameEffect_fault (slot? : Option Nat) (f : Fault) : SameEffect slot? (.fault f) (.fault f) :=
  ⟨rfl, nofun⟩

theorem sameEffect_offer {slot? : Option Nat} (h : ∀ k, slot? = some k → s.slotAt k = u.slotAt k)
    (r : Response) : SameEffect slot? (.next (s.offer r)) (.next (u.offer r)) := by
  refine ⟨rfl, ?_⟩
  rintro _ ⟨⟩
  exact ⟨_, rfl, rfl, fun k hk => (h k hk).symm⟩

/-- A command that only answers has the same effect where the named slot is the same. -/
theorem sameEffect_answer (h : s.slotAt k = u.slotAt k) (r : Response) :
    SameEffect (some k) (.next (s.offer r)) (.next (u.offer r)) :=
  sameEffect_offer (by rintro _ ⟨⟩; exact h) r

/-- Writing the same contents to a slot that exists in both states makes it the same in both. -/
theorem sameEffect_write {y : Slot} (hs : s.slotAt k = some y) (hu : u.slotAt k = some y) (x : Slot)
    (r : Response) : SameEffect (some k) (.next ((s.setSlot k x).offer r)) (.next ((u.setSlot k x).offer r)) :=
  sameEffect_answer (by
    rw [s.setSlot_slotAt_self k x (s.slotAt_lt k y hs), u.setSlot_slotAt_self k x (u.slotAt_lt k y hu)]) r

theorem sameEffect_unlessDivisorZero {slot? : Option Nat} {d e : Word} {o p : Result} (hd : d = e)
    (h : SameEffect slot? o p) : SameEffect slot? (unlessDivisorZero d o) (unlessDivisorZero e p) := by
  subst hd
  by_cases h0 : d = 0#64
  · rw [h0, unlessDivisorZero_zero, unlessDivisorZero_zero]
    exact sameEffect_fault _ _
  · rwa [unlessDivisorZero_of_ne h0, unlessDivisorZero_of_ne h0]

/-- The checks of the reading commands and RELEASE find the same in the same slot. -/
theorem sameEffect_checkDivider {f g : Divider → Result} (h : s.slotAt k = u.slotAt k)
    (hbody : ∀ d, s.slotAt k = some (.constructed d) → SameEffect (some k) (f d) (g d)) :
    SameEffect (some k) (afterChecks (checkDivider k s) f) (afterChecks (checkDivider k u) g) := by
  rcases checkDivider_cases k s with ⟨hs, hc⟩ | ⟨hs, hc⟩ | ⟨d, hs, hc⟩ | ⟨hs, hc⟩ <;> rw [hc]
  · rw [checkDivider_range (h ▸ hs)]
    exact sameEffect_answer h _
  · rw [checkDivider_uninit (h ▸ hs)]
    exact sameEffect_answer h _
  · rw [checkDivider_ok (h ▸ hs)]
    exact hbody d hs
  · rw [checkDivider_noValue (h ▸ hs)]
    exact sameEffect_fault _ _

theorem sameEffect_checkFullDivider {f g : Divider → Result} (h : s.slotAt k = u.slotAt k)
    (hbody : ∀ d, s.slotAt k = some (.constructed d) → SameEffect (some k) (f d) (g d)) :
    SameEffect (some k) (afterChecks (checkFullDivider k s) f) (afterChecks (checkFullDivider k u) g) := by
  rw [afterChecks_checkFullDivider, afterChecks_checkFullDivider]
  refine sameEffect_checkDivider h fun d hd => ?_
  split
  · exact sameEffect_answer h _
  · exact hbody d hd

theorem State.operand_eq_of_pins (h : s.pins = u.pins) (p : OperandPort) : s.operand p = u.operand p := by
  cases p <;> simp [State.operand, h]

theorem sameEffect_construct (v : Variant) (hp : s.pins = u.pins) (h : s.slotAt k = u.slotAt k) :
    SameEffect (some k) (construct v k s) (construct v k u) := by
  have hopa : s.operand .opa = u.operand .opa := State.operand_eq_of_pins hp .opa
  rw [construct, construct]
  rcases checkFree_cases k s with ⟨hs, hc⟩ | ⟨d, hs, hc⟩ | ⟨hs, hc⟩ | ⟨hs, hc⟩ <;> rw [hc]
  · rw [checkFree_range (h ▸ hs)]
    exact sameEffect_answer h _
  · rw [checkFree_busy (h ▸ hs)]
    exact sameEffect_answer h _
  · rw [checkFree_ok (h ▸ hs), hopa]
    exact sameEffect_unlessDivisorZero rfl (sameEffect_write hs (h ▸ hs) _ _)
  · rw [checkFree_noValue (h ▸ hs)]
    exact sameEffect_fault _ _

/-- A one-shot command reads the pins alone (R120). -/
theorem sameEffect_oneShot (hp : s.pins = u.pins) (res : Word → Word → Option Word × Option Word) :
    SameEffect none (oneShot s fun n d => respond (res n d).1 (res n d).2 s)
      (oneShot u fun n d => respond (res n d).1 (res n d).2 u) := by
  rw [oneShot, oneShot, State.operand_eq_of_pins hp .opa, State.operand_eq_of_pins hp .opb]
  exact sameEffect_unlessDivisorZero rfl (sameEffect_offer (slot? := none) nofun _)

end SameEffect

/-- Settles O29: each command's checks and body read the pins and the named slot alone. -/
theorem commandsReadAtMostTheNamedSlot : Obligations.CommandsReadAtMostTheNamedSlot := by
  intro i s u hp hslot
  change SameEffect i.slot? (exec i s) (exec i u)
  have hopa : s.operand .opa = u.operand .opa := State.operand_eq_of_pins hp .opa
  cases i with
  | constructF k => exact sameEffect_construct .full hp (hslot k rfl)
  | constructL k => exact sameEffect_construct .lean hp (hslot k rfl)
  | release k =>
    have h := hslot k rfl
    exact sameEffect_checkDivider h fun d hd => sameEffect_write hd (h ▸ hd) _ _
  | getdiv k =>
    have h := hslot k rfl
    exact sameEffect_checkDivider h fun d _ => sameEffect_answer h _
  | div k =>
    have h := hslot k rfl
    exact sameEffect_checkDivider h fun d _ => hopa ▸ sameEffect_answer h _
  | mod k =>
    have h := hslot k rfl
    exact sameEffect_checkFullDivider h fun d _ => hopa ▸ sameEffect_answer h _
  | divmod k =>
    have h := hslot k rfl
    exact sameEffect_checkFullDivider h fun d _ => hopa ▸ sameEffect_answer h _
  | div1F => exact sameEffect_oneShot hp fun n d => (some (divideF n d (solve .full d)), none)
  | div1L => exact sameEffect_oneShot hp fun n d => (some (applyLean n (neg64 d) (solve .lean d)), none)
  | mod1 => exact sameEffect_oneShot hp fun n d => (some (moduloF n d (solve .full d)), none)
  | divmod1 =>
    exact sameEffect_oneShot hp fun n d =>
      (some (divModF n d (solve .full d)).1, some (divModF n d (solve .full d)).2)

end Sys2Proof.Machine

/-! PROOFS. The statements of 20_memory.md: what can change a slot (R43, R142, R146), and the commands that only read
slots commute (R49). -/

namespace Sys2Proof.Machine

/-! ### What can change a slot (R43, R142, R146) -/

theorem State.setSlot_slotAt_self_ne {s : State} {k : Nat} {x y : Slot} (hs : s.slotAt k = some y) (hxy : x ≠ y) :
    (s.setSlot k x).slotAt k ≠ s.slotAt k := by
  rw [s.setSlot_slotAt_self k x (s.slotAt_lt k y hs), hs]
  exact fun h => hxy (Option.some.inj h)

/-- A command that changes the slots is a CONSTRUCT or RELEASE answered OK, and the slot it names is the one that
changed (R43). -/
theorem exec_next_of_slots_ne {i : Instr} {s t : State} (h : exec i s = .next t) (hne : t.slots ≠ s.slots) :
    ∃ k, i.slot? = some k ∧ readsOnly i = false ∧ t.rsp = some ⟨.ok, none, none⟩ ∧
      t.slotAt k ≠ s.slotAt k ∧ ∀ j, j ≠ k → t.slotAt j = s.slotAt j := by
  have hreads : readsOnly i = false :=
    Bool.eq_false_of_not_eq_true fun hi => hne (exec_next_slots_of_readsOnly hi h)
  have others : ∀ k, i.slot? = some k → ∀ j, j ≠ k → t.slotAt j = s.slotAt j := fun k hk j hj =>
    exec_next_slotAt_of_not_named (fun hn => hj (Option.some.inj (hn.symm.trans hk))) h
  rcases exec_next_cases h with ⟨r, rfl⟩ | ⟨k, v, hi, hs, -, rfl⟩ | ⟨k, d, rfl, hs, rfl⟩
  · exact absurd rfl hne
  · have hk : i.slot? = some k := by rcases hi with ⟨rfl, -⟩ | ⟨rfl, -⟩ <;> rfl
    exact ⟨k, hk, hreads, rfl, State.setSlot_slotAt_self_ne hs nofun, others k hk⟩
  · exact ⟨k, rfl, hreads, rfl, State.setSlot_slotAt_self_ne hs nofun, others k rfl⟩

/-- Settles O14: of the things a step can do, only reset, a command and a recorded fault write a slot. -/
theorem slotsChangeOnlyByCommandOrReset : Obligations.SlotsChangeOnlyByCommandOrReset := by
  intro s t h hne
  obtain ⟨u, rfl, hu⟩ := step_next_cases h
  simp only [State.hostMoves_slots, State.hostMoves_rsp, State.hostMoves_fault, State.hostMoves_slotAt] at hne ⊢
  rcases hu with ⟨hm, -⟩ | ⟨-, rfl⟩ | ⟨-, rfl⟩ | ⟨w, why, -, -, rfl⟩ | ⟨w, i, hm, hd, he⟩ |
    ⟨w, i, ⟨⟩, hm, hd, he, rfl⟩
  · exact .inl ((moment_inReset_iff s).1 hm)
  · exact absurd rfl hne
  · exact absurd rfl hne
  · exact absurd rfl hne
  · obtain rfl := word_of_accepted hm
    exact .inr ⟨i, hm, hd, .inl (exec_next_of_slots_ne he hne)⟩
  · obtain rfl := word_of_accepted hm
    exact .inr ⟨i, hm, hd, .inr ⟨he, rfl⟩⟩

/-! ### The commands that only read slots (R49) -/

theorem State.withOperands_pins_congr {s u : State} (h : s.pins = u.pins) (a b : Word) :
    (s.withOperands a b).pins = (u.withOperands a b).pins := by
  simp only [State.withOperands, h]

/-- A reading command presented with operands of its own keeps the slots it found. -/
theorem exec_withOperands_slots_of_readsOnly {i : Instr} {s t : State} {a b : Word} (hi : readsOnly i = true)
    (h : exec i (s.withOperands a b) = .next t) : t.slots = s.slots :=
  (exec_next_slots_of_readsOnly hi h).trans (s.withOperands_slots a b)

/-- A command sees nothing of a state but its pins and its slots: the response of the command before, the recorded
fault and the script do not reach its response. -/
theorem exec_next_rsp_of_pins_slots {i : Instr} {s u t : State} (hp : s.pins = u.pins) (hslots : s.slots = u.slots)
    (h : exec i s = .next t) : ∃ v, exec i u = .next v ∧ v.rsp = t.rsp := by
  obtain ⟨-, hnext⟩ := commandsReadAtMostTheNamedSlot i s u hp fun k _ => congrArg (·[k]?) hslots
  obtain ⟨v, hv, hrsp, -⟩ := hnext t h
  exact ⟨v, hv, hrsp⟩

/-- A command gives the same response whether or not a reading command, with operands of its own, ran before it. -/
theorem exec_next_rsp_iff_after_readsOnly {i j : Instr} {s t : State} {a b : Word} (hi : readsOnly i = true)
    (h : exec i (s.withOperands a b) = .next t) (c d : Word) (r : Option Response) :
    (∃ u, exec j (t.withOperands c d) = .next u ∧ u.rsp = r) ↔
      ∃ u, exec j (s.withOperands c d) = .next u ∧ u.rsp = r := by
  obtain ⟨hpins, -⟩ := exec_next_frame h
  have hp : (t.withOperands c d).pins = (s.withOperands c d).pins := State.withOperands_pins_congr hpins c d
  have hslots : (t.withOperands c d).slots = (s.withOperands c d).slots := by
    simpa using exec_withOperands_slots_of_readsOnly hi h
  constructor
  · rintro ⟨u, hu, rfl⟩
    exact exec_next_rsp_of_pins_slots hp hslots hu
  · rintro ⟨u, hu, rfl⟩
    exact exec_next_rsp_of_pins_slots hp.symm hslots.symm hu

/-- Settles O33: neither command's response depends on the other having run, and neither writes a slot. -/
theorem readingCommandsCommute : Obligations.ReadingCommandsCommute := by
  intro i j s t u a b c d hi hj ht hu
  obtain ⟨t', ht', hrspj⟩ := (exec_next_rsp_iff_after_readsOnly hi ht c d u.rsp).1 ⟨u, hu, rfl⟩
  obtain ⟨u', hu', hrspi⟩ := (exec_next_rsp_iff_after_readsOnly hj ht' a b t.rsp).2 ⟨t, ht, rfl⟩
  refine ⟨t', u', ht', hu', hrspj, hrspi, ?_⟩
  calc u'.slots = t'.slots := exec_withOperands_slots_of_readsOnly hi hu'
    _ = s.slots := exec_withOperands_slots_of_readsOnly hj ht'
    _ = t.slots := (exec_withOperands_slots_of_readsOnly hi ht).symm
    _ = u.slots := (exec_withOperands_slots_of_readsOnly hj hu).symm

end Sys2Proof.Machine

/-! PROOFS. The statements of 30_encoding.md about the command word: decoding and encoding are inverse to each other
(R52, R59), the match/mask table (R56), the illegal words (R58), and the assembler lines (R62). -/

namespace Sys2Proof.Machine

/-! ### A step that accepts an illegal word (R58, R140) -/

/-- The operands play no part in what a moment transfers. -/
theorem moment_withOperands (s : State) (a b : Word) : (s.withOperands a b).moment = s.moment := rfl

/-- An accepted illegal word is answered E_ILLEGAL and changes nothing else of the FDC (R58, R140). -/
theorem step_of_accepted_illegal {s : State} {w : CmdWord} {why : IllegalWord} (hm : s.moment = .accepted w)
    (hd : decode w = .illegal why) : step s = .next (s.offer ⟨.eIllegal, none, none⟩).hostMoves := by
  rw [step, hm]
  simp [runWord, hd, answerIllegal, afterMoment]

end Sys2Proof.Machine

namespace Sys2Proof.Laws

open Machine
open EncodedFields (fields)

/-! ### Well-formed commands (R52, R53) -/

theorem slotFits_iff (k : Nat) : slotFits k ↔ k < 16 := Iff.rfl

theorem wellFormed_iff (i : Instr) : i.WellFormed ↔ ∀ k, i.slot? = some k → k < 16 := by
  cases i <;> simp [Instr.WellFormed, Instr.wellFormed, Instr.slot?, slotFits_iff]

/-- The word of a command is its row's fields packed (R56). -/
theorem encode_eq_packWord (i : Instr) : encode i = packWord (fields i).1 (fields i).2.1 (fields i).2.2 := by
  cases i <;> rfl

/-- The word of a well-formed command has its row's fields, the reserved ones 0. -/
theorem encode_fields (i : Instr) : EncodedFields.Statement i := by
  cases i with
  | constructF k => exact EncodedFields.constructF k
  | constructL k => exact EncodedFields.constructL k
  | release k => exact EncodedFields.release k
  | getdiv k => exact EncodedFields.getdiv k
  | div k => exact EncodedFields.div k
  | mod k => exact EncodedFields.mod k
  | divmod k => exact EncodedFields.divmod k
  | div1F => exact EncodedFields.div1F
  | div1L => exact EncodedFields.div1L
  | mod1 => exact EncodedFields.mod1
  | divmod1 => exact EncodedFields.divmod1

theorem fields_lt (i : Instr) : (fields i).2.1 < 2 ∧ (fields i).2.2 < 16 := by
  cases i <;> simp [fields]

/-- The only slot number in a command's fields is the slot it names. -/
theorem fields_slot_of_slot? {i : Instr} {k : Nat} (h : i.slot? = some k) : (fields i).1 = k := by
  cases i <;> simp_all [Instr.slot?, fields]

/-- A slot command as a function of its slot: the command names that slot, and of its fields only `SLOT` depends on
it (R56: `match | (s << 8)`). -/
structure IsSlotCommand (build : Nat → Instr) : Prop where
  slot? : ∀ k, (build k).slot? = some k
  fields : ∀ k, fields (build k) = (k, (fields (build 0)).2)

namespace IsSlotCommand

theorem constructF : IsSlotCommand .constructF := ⟨fun _ => rfl, fun _ => rfl⟩
theorem constructL : IsSlotCommand .constructL := ⟨fun _ => rfl, fun _ => rfl⟩
theorem release : IsSlotCommand .release := ⟨fun _ => rfl, fun _ => rfl⟩
theorem getdiv : IsSlotCommand .getdiv := ⟨fun _ => rfl, fun _ => rfl⟩
theorem div : IsSlotCommand .div := ⟨fun _ => rfl, fun _ => rfl⟩
theorem mod : IsSlotCommand .mod := ⟨fun _ => rfl, fun _ => rfl⟩
theorem divmod : IsSlotCommand .divmod := ⟨fun _ => rfl, fun _ => rfl⟩

variable {build : Nat → Instr} (h : IsSlotCommand build) {k : Nat}
include h

theorem wellFormed (hk : k < 16) : (build k).WellFormed :=
  (wellFormed_iff _).2 fun _ hj => Option.some.inj ((h.slot? k).symm.trans hj) ▸ hk

theorem encode_eq (k : Nat) :
    encode (build k) = packWord k (EncodedFields.fields (build 0)).2.1 (EncodedFields.fields (build 0)).2.2 := by
  rw [encode_eq_packWord, h.fields]

end IsSlotCommand

/-! ### Fields of a word (R52) -/

theorem slotOf_lt (w : CmdWord) : slotOf w < 16 := Nat.mod_lt _ (by decide)
theorem varOf_lt (w : CmdWord) : varOf w < 2 := Nat.mod_lt _ (by decide)
theorem opOf_lt (w : CmdWord) : opOf w < 16 := Nat.mod_lt _ (by decide)

theorem packWord_toNat {slot var op : Nat} (hs : slot < 16) (hv : var < 2) (ho : op < 16) :
    (packWord slot var op).toNat = op + 2 ^ 4 * var + 2 ^ 8 * slot :=
  Nat.mod_eq_of_lt (by omega)

/-- A word without reserved bits is its three fields packed again. -/
theorem packWord_of_fields {w : CmdWord} (h1 : rsv1Of w = 0) (h0 : rsv0Of w = 0) :
    packWord (slotOf w) (varOf w) (opOf w) = w := by
  apply BitVec.eq_of_toNat_eq
  rw [packWord_toNat (slotOf_lt w) (varOf_lt w) (opOf_lt w), word_of_fields w, h1, h0]
  omega

/-! ### Decoding (R58, R59) -/

/-- A word is not illegal exactly when none of the five conditions of R58 holds. -/
theorem illegalReason_eq_none_iff (w : CmdWord) :
    illegalReason w = none ↔
      rsv1Of w = 0 ∧ rsv0Of w = 0 ∧ opOf w ∉ reservedOps ∧ ¬ (opOf w ∈ fixedVariantOps ∧ varOf w = 1) ∧
        ¬ (opOf w ∈ oneShotOps ∧ slotOf w ≠ 0) := by
  simp only [illegalReason, ite_eq_iff, reduceCtorEq]
  tauto

/-- The row selected holds the fields it was selected by; a one-shot row holds no slot. -/
theorem fields_of_selectRow {op var slot : Nat} {i : Instr} (h : selectRow op var slot = .command i)
    (hslot : op ∈ oneShotOps → slot = 0) : fields i = (slot, var, op) := by
  unfold selectRow at h
  split at h <;> cases h <;> simp_all [fields, oneShotOps]

/-- The fields of a command select its row. -/
theorem selectRow_of_fields {op var slot : Nat} {i : Instr} (h : fields i = (slot, var, op)) :
    selectRow op var slot = .command i := by
  cases i <;> cases h <;> rfl

/-- No condition of R58 on `OP`, `VAR` and `SLOT` holds of a command's fields. -/
theorem fields_not_illegal {op var slot : Nat} {i : Instr} (h : fields i = (slot, var, op)) :
    op ∉ reservedOps ∧ ¬ (op ∈ fixedVariantOps ∧ var = 1) ∧ ¬ (op ∈ oneShotOps ∧ slot ≠ 0) := by
  cases i <;> cases h <;> simp [reservedOps, fixedVariantOps, oneShotOps]

/-- A word decodes to a command exactly when its reserved fields are 0 and the others are the command's (R59). -/
theorem decode_eq_command_iff_fields (w : CmdWord) (i : Instr) :
    decode w = .command i ↔ rsv1Of w = 0 ∧ rsv0Of w = 0 ∧ fields i = (slotOf w, varOf w, opOf w) := by
  constructor
  · intro h
    cases hr : illegalReason w with
    | some why => simp [decode, hr] at h
    | none =>
      obtain ⟨h1, h0, -, -, hslot⟩ := (illegalReason_eq_none_iff w).1 hr
      rw [decode, hr] at h
      exact ⟨h1, h0, fields_of_selectRow h fun ho => by_contra fun hne => hslot ⟨ho, hne⟩⟩
  · rintro ⟨h1, h0, hf⟩
    have hr : illegalReason w = none := (illegalReason_eq_none_iff w).2 ⟨h1, h0, fields_not_illegal hf⟩
    rw [decode, hr]
    exact selectRow_of_fields hf

/-- Settles O1: the word of a well-formed command has the command's fields, which select its row. -/
theorem decodeOfEncodeIsTheCommand : Obligations.DecodeOfEncodeIsTheCommand := by
  intro i hi
  obtain ⟨h1, hs, h0, hv, ho⟩ := encode_fields i hi
  exact (decode_eq_command_iff_fields _ i).2 ⟨h1, h0, by rw [hs, hv, ho]⟩

/-- Settles O2: a word without reserved bits is its fields packed, and those are the command's. -/
theorem encodeOfDecodeIsTheWord : Obligations.EncodeOfDecodeIsTheWord := by
  intro w i h
  obtain ⟨h1, h0, hf⟩ := (decode_eq_command_iff_fields w i).1 h
  constructor
  · refine (wellFormed_iff i).2 fun k hk => ?_
    rw [← fields_slot_of_slot? hk, hf]
    exact slotOf_lt w
  · rw [encode_eq_packWord, hf]
    exact packWord_of_fields h1 h0

/-- Decoding and encoding are inverse to each other. -/
theorem decode_eq_command_iff (w : CmdWord) (i : Instr) :
    decode w = .command i ↔ i.WellFormed ∧ encode i = w := by
  constructor
  · exact encodeOfDecodeIsTheWord w i
  · rintro ⟨hi, rfl⟩
    exact decodeOfEncodeIsTheCommand i hi

/-- Settles O6, by running the decoder on the eleven words. -/
theorem writtenOutWordsDecode : Obligations.WrittenOutWordsDecode := by
  unfold Obligations.WrittenOutWordsDecode
  decide

/-! ### The match/mask table (R56) -/

/-- The mask of a slot command clears the `SLOT` field and keeps every other bit. -/
theorem and_slotMask_toNat (w : CmdWord) : (w &&& 0xFFFFF0FF#32).toNat + 2 ^ 8 * slotOf w = w.toNat := by
  have hlow : (w.toNat &&& 0xFFFFF0FF) % 2 ^ 12 = w.toNat % 2 ^ 8 := by
    rw [Nat.and_mod_two_pow, show 0xFFFFF0FF % 2 ^ 12 = 2 ^ 8 - 1 by decide, Nat.and_two_pow_sub_one_eq_mod]
    omega
  have hhigh : (w.toNat &&& 0xFFFFF0FF) / 2 ^ 12 = w.toNat / 2 ^ 12 := by
    rw [Nat.and_div_two_pow, show 0xFFFFF0FF / 2 ^ 12 = 2 ^ 20 - 1 by decide, Nat.and_two_pow_sub_one_eq_mod]
    exact Nat.mod_eq_of_lt (by omega)
  have hslot : slotOf w = w.toNat / 2 ^ 8 % 2 ^ 4 := rfl
  rw [BitVec.toNat_and, BitVec.toNat_ofNat, Nat.mod_eq_of_lt (by decide)]
  omega

/-- A word matches a slot command's row exactly when it is the row's pattern with the word's own slot. -/
theorem and_slotMask_eq_iff (w : CmdWord) {var op : Nat} (hv : var < 2) (ho : op < 16) :
    w &&& 0xFFFFF0FF#32 = packWord 0 var op ↔ packWord (slotOf w) var op = w := by
  rw [← BitVec.toNat_inj, ← BitVec.toNat_inj, packWord_toNat (by decide) hv ho,
    packWord_toNat (slotOf_lt w) hv ho, ← and_slotMask_toNat w]
  omega

/-- A row of a slot command selects the words that decode to it (R56). -/
theorem slotRow_selects_iff {build : Nat → Instr} (h : IsSlotCommand build) (w : CmdWord) :
    Row.selects ⟨0xFFFFF0FF#32, encode (build 0), build⟩ w ↔ decode w = .command (build (slotOf w)) := by
  obtain ⟨hv, ho⟩ := fields_lt (build 0)
  rw [decode_eq_command_iff, h.encode_eq, Row.selects, h.encode_eq, and_slotMask_eq_iff w hv ho]
  exact ⟨fun hw => ⟨h.wellFormed (slotOf_lt w), hw⟩, fun hw => hw.2⟩

/-- A row of a one-shot command selects the one word that decodes to it (R56). -/
theorem oneShotRow_selects_iff {i : Instr} (hi : i.WellFormed) (w : CmdWord) :
    Row.selects ⟨0xFFFFFFFF#32, encode i, fun _ => i⟩ w ↔ decode w = .command i := by
  have hmask : w &&& 0xFFFFFFFF#32 = w := BitVec.and_allOnes
  rw [decode_eq_command_iff, Row.selects, hmask, eq_comm]
  exact ⟨fun h => ⟨hi, h⟩, fun h => h.2⟩

theorem selects_iff_decode (w : CmdWord) :
    ∀ r ∈ commandTable, (r.selects w ↔ decode w = .command (r.build (slotOf w))) := by
  simp only [commandTable, List.forall_mem_cons, List.not_mem_nil, false_implies, implies_true, and_true]
  exact ⟨slotRow_selects_iff .constructF w,
    slotRow_selects_iff .constructL w,
    slotRow_selects_iff .release w,
    slotRow_selects_iff .getdiv w,
    slotRow_selects_iff .div w,
    slotRow_selects_iff .mod w,
    slotRow_selects_iff .divmod w,
    oneShotRow_selects_iff (i := .div1F) rfl w, oneShotRow_selects_iff (i := .div1L) rfl w,
    oneShotRow_selects_iff (i := .mod1) rfl w, oneShotRow_selects_iff (i := .divmod1) rfl w⟩

/-- Every command is built by a row of the table from the slot it names. -/
theorem exists_row_build (i : Instr) : ∃ r ∈ commandTable, i = r.build (fields i).1 := by
  cases i <;> simp [commandTable, fields]

/-- Two rows build different commands from the same slot. -/
theorem commandTable_builds_differ (k : Nat) : commandTable.Pairwise fun a b => a.build k ≠ b.build k := by
  simp [commandTable]

/-- A word decodes to a command exactly when a row of the table selects it. -/
theorem decode_eq_command_iff_row (w : CmdWord) (i : Instr) :
    decode w = .command i ↔ ∃ r ∈ commandTable, r.selects w ∧ i = r.build (slotOf w) := by
  constructor
  · intro h
    obtain ⟨-, -, hf⟩ := (decode_eq_command_iff_fields w i).1 h
    obtain ⟨r, hr, hi⟩ := exists_row_build i
    rw [hf] at hi
    exact ⟨r, hr, (selects_iff_decode w r hr).2 (by rw [h, ← hi]), hi⟩
  · rintro ⟨r, hr, hsel, rfl⟩
    exact (selects_iff_decode w r hr).1 hsel

/-- Settles O3: each row selects the words that decode to its command, and two rows have two commands. -/
theorem decodeFollowsTheMatchMaskTable : Obligations.DecodeFollowsTheMatchMaskTable := by
  intro w
  refine ⟨decode_eq_command_iff_row w, fun hnone => ?_, ?_⟩
  · cases hd : decode w with
    | illegal why => exact ⟨why, rfl⟩
    | command i =>
      obtain ⟨r, hr, hsel, -⟩ := (decode_eq_command_iff_row w i).1 hd
      exact absurd hsel (hnone r hr)
  · refine (commandTable_builds_differ (slotOf w)).imp_of_mem ?_
    rintro a b ha hb hne ⟨hsa, hsb⟩
    have hdecode := ((selects_iff_decode w a ha).1 hsa).symm.trans ((selects_iff_decode w b hb).1 hsb)
    exact hne (Decoded.command.inj hdecode)

/-! ### The illegal words (R58) -/

/-- Fields none of the conditions of R58 rules out are those of a command: `OP` 1 or 8 with either `VAR`, or another
`OP` that is not reserved with `VAR` 0; and no slot beside a one-shot `OP`. -/
theorem exists_fields_of_not_illegal {op var slot : Nat} (hv : var < 2) (ho : op < 16) (hres : op ∉ reservedOps)
    (hvar : ¬ (op ∈ fixedVariantOps ∧ var = 1)) (hslot : ¬ (op ∈ oneShotOps ∧ slot ≠ 0)) :
    ∃ i, fields i = (slot, var, op) := by
  have hop : ∀ n < 16, n ∉ reservedOps → n = 1 ∨ n = 8 ∨ n ∈ fixedVariantOps := by decide
  have hslot0 : op ∈ oneShotOps → slot = 0 := fun hop => by_contra fun hne => hslot ⟨hop, hne⟩
  rcases hop op ho hres with rfl | rfl | hfixed
  · obtain rfl | rfl : var = 0 ∨ var = 1 := by omega
    · exact ⟨.constructF slot, rfl⟩
    · exact ⟨.constructL slot, rfl⟩
  · obtain rfl := hslot0 (by decide)
    obtain rfl | rfl : var = 0 ∨ var = 1 := by omega
    · exact ⟨.div1F, rfl⟩
    · exact ⟨.div1L, rfl⟩
  · obtain rfl : var = 0 := by
      have : var ≠ 1 := fun h1 => hvar ⟨hfixed, h1⟩
      omega
    simp only [fixedVariantOps, List.mem_cons, List.not_mem_nil, or_false] at hfixed
    rcases hfixed with rfl | rfl | rfl | rfl | rfl | rfl | rfl
    · exact ⟨.release slot, rfl⟩
    · exact ⟨.getdiv slot, rfl⟩
    · exact ⟨.div slot, rfl⟩
    · exact ⟨.mod slot, rfl⟩
    · exact ⟨.divmod slot, rfl⟩
    · obtain rfl := hslot0 (by decide)
      exact ⟨.mod1, rfl⟩
    · obtain rfl := hslot0 (by decide)
      exact ⟨.divmod1, rfl⟩

/-- Every word that no condition of R58 rules out is a command. -/
theorem exists_command_iff (w : CmdWord) : (∃ i, decode w = .command i) ↔ illegalReason w = none := by
  rw [illegalReason_eq_none_iff]
  constructor
  · rintro ⟨i, hi⟩
    obtain ⟨h1, h0, hf⟩ := (decode_eq_command_iff_fields w i).1 hi
    exact ⟨h1, h0, fields_not_illegal hf⟩
  · rintro ⟨h1, h0, hres, hvar, hslot⟩
    obtain ⟨i, hf⟩ := exists_fields_of_not_illegal (varOf_lt w) (opOf_lt w) hres hvar hslot
    exact ⟨i, (decode_eq_command_iff_fields w i).2 ⟨h1, h0, hf⟩⟩

/-- Every word is a command or illegal, and not both (R58). -/
theorem exists_illegal_iff (w : CmdWord) : (∃ why, decode w = .illegal why) ↔ ¬ ∃ i, decode w = .command i := by
  cases decode w <;> simp

/-- The five conditions of R58, by the fields' names. -/
theorem exists_illegal_iff_fields (w : CmdWord) :
    (∃ why, decode w = .illegal why) ↔
      rsv1Of w ≠ 0 ∨ rsv0Of w ≠ 0 ∨ opOf w ∈ reservedOps ∨ (opOf w ∈ fixedVariantOps ∧ varOf w = 1) ∨
        (opOf w ∈ oneShotOps ∧ slotOf w ≠ 0) := by
  rw [exists_illegal_iff, exists_command_iff, illegalReason_eq_none_iff]
  tauto

/-- The list of R58 holds every well-formed command, and no other. -/
theorem mem_legalCommands (i : Instr) : i ∈ legalCommands ↔ i.WellFormed := by
  cases i <;> simp [legalCommands, wellFormed_iff, Instr.slot?]

/-- The legal words are the words of the listed commands. -/
theorem exists_command_iff_mem_legal (w : CmdWord) :
    (∃ i, decode w = .command i) ↔ w ∈ legalCommands.map encode := by
  simp only [List.mem_map, mem_legalCommands, decode_eq_command_iff]

theorem legalCommands_nodup : legalCommands.Nodup := by decide

/-- Two listed commands have two words, since decoding gives each back. -/
theorem legalWords_nodup : (legalCommands.map encode).Nodup := by
  refine legalCommands_nodup.map_on fun i hi j hj hij => ?_
  have hdi := decodeOfEncodeIsTheCommand i ((mem_legalCommands i).1 hi)
  have hdj := decodeOfEncodeIsTheCommand j ((mem_legalCommands j).1 hj)
  rw [hij] at hdi
  exact Decoded.command.inj (hdi.symm.trans hdj)

/-- Settles O4: the conditions, the list of legal words, and the answer to an illegal one. -/
theorem illegalWordsAreThoseOfTheRule : Obligations.IllegalWordsAreThoseOfTheRule := by
  refine ⟨fun w => ⟨exists_illegal_iff_fields w, exists_command_iff_mem_legal w, ?_⟩, by decide, legalWords_nodup, ?_⟩
  · rw [exists_illegal_iff]
    exact em _
  · intro s w why hm hd a b
    refine ⟨_, step_of_accepted_illegal ((moment_withOperands s a b).trans hm) hd, ?_, ?_⟩ <;> simp

/-! ### Assembler lines (R62) -/

theorem operandWord_of_lt {n : Nat} (h : n < 2 ^ 64) : operandWord n = some (BitVec.ofNat 64 n) := if_pos h

theorem operandWord_of_ge {n : Nat} (h : 2 ^ 64 ≤ n) : operandWord n = none := if_neg (Nat.not_lt.2 h)

/-- Or-ing the slot into a row's pattern packs it into the `SLOT` field (R56). -/
theorem slotWord_packWord {slot var op : Nat} (hs : slot < 16) (hv : var < 2) (ho : op < 16) :
    slotWord (packWord 0 var op) slot = packWord slot var op := by
  apply BitVec.eq_of_toNat_eq
  have hor := Nat.two_pow_add_eq_or_of_lt (show op + 2 ^ 4 * var < 2 ^ 8 by omega) slot
  rw [slotWord, BitVec.toNat_or, BitVec.toNat_shiftLeft, packWord_toNat hs hv ho, packWord_toNat (by decide) hv ho,
    BitVec.toNat_ofNat, Nat.mod_eq_of_lt (by omega), Nat.shiftLeft_eq, Nat.mod_eq_of_lt (by omega)]
  rw [Nat.or_comm, Nat.mul_comm slot]
  simpa [Nat.add_comm] using hor.symm

theorem IsSlotCommand.slotWord {build : Nat → Instr} (h : IsSlotCommand build) {k : Nat} (hk : k < 16) :
    Machine.slotWord (encode (build 0)) k = encode (build k) := by
  obtain ⟨hv, ho⟩ := fields_lt (build 0)
  rw [h.encode_eq, h.encode_eq, slotWord_packWord hk hv ho]

/-- The commands that use OPB are the one-shot commands (R57). -/
theorem usesPort_opb_iff (i : Instr) : usesPort i .opb ↔ i.slot? = none := by
  cases i <;> simp [usesPort, divisorPort, dividendPort, Instr.slot?]

theorem usesPort_opa_of_slot?_eq_none {i : Instr} (h : i.slot? = none) : usesPort i .opa := by
  cases i <;> simp_all [usesPort, divisorPort, dividendPort, Instr.slot?]

/-- The mnemonics of the slot commands. -/
theorem mnemonic_mem_slot_iff (i : Instr) :
    i.mnemonic ∈ [Mnemonic.constructF, .constructL, .release, .getdiv, .div, .mod, .divmod] ↔ i.slot? ≠ none := by
  cases i <;> simp [Instr.mnemonic, Instr.slot?]

theorem bareLine_of_wellFormed {i : Instr} (hi : i.WellFormed) : bareLine i = some ⟨encode i, none, none⟩ :=
  if_pos hi

theorem opaLine_of_wellFormed {i : Instr} {a : Nat} (hi : i.WellFormed) (ha : a < 2 ^ 64) :
    opaLine i a = some ⟨encode i, some (BitVec.ofNat 64 a), none⟩ := by
  simp [opaLine, hi, operandWord_of_lt ha]

theorem pairLine_of_lt {a b : Nat} (i : Instr) (ha : a < 2 ^ 64) (hb : b < 2 ^ 64) :
    pairLine i a b = some ⟨encode i, some (BitVec.ofNat 64 a), some (BitVec.ofNat 64 b)⟩ := by
  simp [pairLine, operandWord_of_lt ha, operandWord_of_lt hb]

/-- What a line says: its command, its numbers, and the word and operands it stands for (R57, R62). -/
inductive LineOf : Instr → List Nat → CommandLine → Prop
  /-- A slot command without an operand. -/
  | bare {i : Instr} {k : Nat} (hi : i.WellFormed) (hk : i.slot? = some k) (hopa : ¬ usesPort i .opa) :
      LineOf i [k] ⟨encode i, none, none⟩
  /-- A slot command with its operand in OPA. -/
  | opa {i : Instr} {k a : Nat} {x : Word} (hi : i.WellFormed) (hk : i.slot? = some k) (hopa : usesPort i .opa)
      (ha : a < 2 ^ 64) : LineOf i [k, a] ⟨encode i, some x, none⟩
  /-- A one-shot command with both operands. -/
  | pair {i : Instr} {a b : Nat} {x y : Word} (hk : i.slot? = none) (ha : a < 2 ^ 64) (hb : b < 2 ^ 64) :
      LineOf i [a, b] ⟨encode i, some x, some y⟩

theorem lineOf_bareLine {i : Instr} {k : Nat} {c : CommandLine} (hk : i.slot? = some k) (hopa : ¬ usesPort i .opa)
    (h : bareLine i = some c) : LineOf i [k] c := by
  by_cases hi : i.WellFormed
  · rw [bareLine_of_wellFormed hi] at h
    cases h
    exact .bare hi hk hopa
  · rw [bareLine, if_neg hi] at h
    contradiction

theorem lineOf_opaLine {i : Instr} {k a : Nat} {c : CommandLine} (hk : i.slot? = some k) (hopa : usesPort i .opa)
    (h : opaLine i a = some c) : LineOf i [k, a] c := by
  by_cases hi : i.WellFormed
  · rcases Nat.lt_or_ge a (2 ^ 64) with ha | ha
    · rw [opaLine_of_wellFormed hi ha] at h
      cases h
      exact .opa hi hk hopa ha
    · simp [opaLine, operandWord_of_ge ha] at h
  · simp [opaLine, hi] at h

theorem lineOf_pairLine {i : Instr} {a b : Nat} {c : CommandLine} (hk : i.slot? = none)
    (h : pairLine i a b = some c) : LineOf i [a, b] c := by
  rcases Nat.lt_or_ge a (2 ^ 64) with ha | ha
  · rcases Nat.lt_or_ge b (2 ^ 64) with hb | hb
    · rw [pairLine_of_lt i ha hb] at h
      cases h
      exact .pair hk ha hb
    · simp [pairLine, operandWord_of_ge hb] at h
  · simp [pairLine, operandWord_of_ge ha] at h

/-- Every line the assembler accepts says a command of the row its name stands for. -/
theorem lineOf_of_assemble {name : AsmName} {args : List Nat} {c : CommandLine} (h : assemble name args = some c) :
    ∃ i, i.mnemonic = name.expand ∧ LineOf i args c := by
  unfold assemble at h
  split at h
  case h_1 k d hn => exact ⟨.constructF k, hn.symm, lineOf_opaLine rfl (.inl rfl) h⟩
  case h_2 k d hn => exact ⟨.constructL k, hn.symm, lineOf_opaLine rfl (.inl rfl) h⟩
  case h_3 k hn => exact ⟨.release k, hn.symm, lineOf_bareLine rfl nofun h⟩
  case h_4 k hn => exact ⟨.getdiv k, hn.symm, lineOf_bareLine rfl nofun h⟩
  case h_5 k n hn => exact ⟨.div k, hn.symm, lineOf_opaLine rfl (.inr rfl) h⟩
  case h_6 k n hn => exact ⟨.mod k, hn.symm, lineOf_opaLine rfl (.inr rfl) h⟩
  case h_7 k n hn => exact ⟨.divmod k, hn.symm, lineOf_opaLine rfl (.inr rfl) h⟩
  case h_8 n d hn => exact ⟨.div1F, hn.symm, lineOf_pairLine rfl h⟩
  case h_9 n d hn => exact ⟨.div1L, hn.symm, lineOf_pairLine rfl h⟩
  case h_10 n d hn => exact ⟨.mod1, hn.symm, lineOf_pairLine rfl h⟩
  case h_11 n d hn => exact ⟨.divmod1, hn.symm, lineOf_pairLine rfl h⟩
  case h_12 => contradiction

namespace LineOf
variable {i : Instr} {args : List Nat} {c : CommandLine} {k a : Nat}

theorem wellFormed (h : LineOf i args c) : i.WellFormed := by
  cases h with
  | bare hi hk hopa => exact hi
  | opa hi hk hopa ha => exact hi
  | pair hk ha hb => exact (wellFormed_iff i).2 (by simp [hk])

theorem word_eq (h : LineOf i args c) : c.word = encode i := by
  cases h <;> rfl

theorem head?_eq (h : LineOf i args c) (hk : i.slot? = some k) : args.head? = some k := by
  cases h <;> simp_all

theorem opa_isSome_iff (h : LineOf i args c) : c.opa.isSome = true ↔ usesPort i .opa := by
  cases h with
  | bare hi hk hopa => simp [hopa]
  | opa hi hk hopa ha => simp [hopa]
  | pair hk ha hb => simp [usesPort_opa_of_slot?_eq_none hk]

theorem opb_isSome_iff (h : LineOf i args c) : c.opb.isSome = true ↔ usesPort i .opb := by
  rw [usesPort_opb_iff]
  cases h <;> simp_all

/-- The first number of a slot command's line is a slot (R62). -/
theorem head_lt (h : LineOf i (k :: args) c) (hi : i.slot? ≠ none) : k < 16 := by
  obtain ⟨j, hj⟩ := Option.ne_none_iff_exists'.1 hi
  obtain rfl : k = j := Option.some.inj (h.head?_eq hj)
  exact (wellFormed_iff i).1 h.wellFormed k hj

/-- Of two numbers on a line, both are 64-bit values: an operand by its check, a slot by being below 16. -/
theorem lt_of_two (h : LineOf i [k, a] c) : k < 2 ^ 64 ∧ a < 2 ^ 64 := by
  cases h with
  | opa hi hk hopa ha => exact ⟨((wellFormed_iff i).1 hi k hk).trans (by decide), ha⟩
  | pair hk ha hb => exact ⟨ha, hb⟩

end LineOf

/-- A slot of 16 or more is no line of a slot command (R62). -/
theorem assemble_eq_none_of_slot_ge {name : AsmName} {k : Nat} (args : List Nat) (hk : 16 ≤ k)
    (hname : name.expand ∈ [Mnemonic.constructF, .constructL, .release, .getdiv, .div, .mod, .divmod]) :
    assemble name (k :: args) = none := by
  refine Option.eq_none_iff_forall_ne_some.2 fun c h => ?_
  obtain ⟨i, hi, hline⟩ := lineOf_of_assemble h
  rw [← hi, mnemonic_mem_slot_iff] at hname
  exact absurd (hline.head_lt hname) (Nat.not_lt.2 hk)

/-- A number of 2^64 or more is no line, in either place (R62). -/
theorem assemble_eq_none_of_operand_ge {name : AsmName} {a b : Nat} (hab : 2 ^ 64 ≤ a ∨ 2 ^ 64 ≤ b) :
    assemble name [a, b] = none := by
  refine Option.eq_none_iff_forall_ne_some.2 fun c h => ?_
  obtain ⟨i, -, hline⟩ := lineOf_of_assemble h
  have := hline.lt_of_two
  omega

/-- A slot command's line without an operand is the row's pattern with the slot. -/
theorem IsSlotCommand.bareLine_eq {build : Nat → Instr} (h : IsSlotCommand build) {k : Nat} (hk : k < 16) :
    bareLine (build k) = some ⟨Machine.slotWord (encode (build 0)) k, none, none⟩ := by
  rw [bareLine_of_wellFormed (h.wellFormed hk), h.slotWord hk]

/-- A slot command's line with an operand is the row's pattern with the slot, and the operand in OPA. -/
theorem IsSlotCommand.opaLine_eq {build : Nat → Instr} (h : IsSlotCommand build) {k a : Nat} (hk : k < 16)
    (ha : a < 2 ^ 64) :
    opaLine (build k) a = some ⟨Machine.slotWord (encode (build 0)) k, some (BitVec.ofNat 64 a), none⟩ := by
  rw [opaLine_of_wellFormed (h.wellFormed hk) ha, h.slotWord hk]

/-- Settles O7: the eleven lines by their rows, and the rest by what an accepted line says. -/
theorem assembledLineIsTheNamedCommand : Obligations.AssembledLineIsTheNamedCommand := by
  refine ⟨fun k a b hk ha hb => ?_, fun args => ⟨rfl, rfl⟩, fun name k a b => ⟨fun hk hname => ?_, fun ha => ?_⟩, ?_⟩
  · exact ⟨IsSlotCommand.constructF.opaLine_eq hk ha, IsSlotCommand.constructL.opaLine_eq hk ha,
      IsSlotCommand.release.bareLine_eq hk, IsSlotCommand.getdiv.bareLine_eq hk,
      IsSlotCommand.div.opaLine_eq hk ha, IsSlotCommand.mod.opaLine_eq hk ha, IsSlotCommand.divmod.opaLine_eq hk ha,
      pairLine_of_lt .div1F ha hb, pairLine_of_lt .div1L ha hb, pairLine_of_lt .mod1 ha hb,
      pairLine_of_lt .divmod1 ha hb⟩
  · exact ⟨assemble_eq_none_of_slot_ge [] hk hname, assemble_eq_none_of_slot_ge [a] hk hname⟩
  · exact ⟨assemble_eq_none_of_operand_ge (.inr ha), fun _ => assemble_eq_none_of_operand_ge (.inl ha)⟩
  · intro name args c h
    obtain ⟨i, hi, hline⟩ := lineOf_of_assemble h
    refine ⟨i, hline.wellFormed, ?_, hi, fun k hk => hline.head?_eq hk, hline.opa_isSome_iff, hline.opb_isSome_iff⟩
    rw [hline.word_eq]
    exact decodeOfEncodeIsTheCommand i hline.wellFormed

end Sys2Proof.Laws

/-! PROOFS. The statements of 30_encoding.md about the channels: at most one command in flight (R50), the response and
its fields (R51, R60, R61), and the operands a command does not use (R57). -/

namespace Sys2Proof.Machine

/-! ### The outputs (R50, R51, R160) -/

theorem State.handshake_of_rst {s : State} (h : s.pins.rst = true) (v : Bool) : s.handshake v = some false := by
  simp [State.handshake, h]

theorem State.handshake_eq_true_iff (s : State) (v : Bool) :
    s.handshake v = some true ↔ s.pins.rst = false ∧ s.fault = none ∧ v = true := by
  cases hrst : s.pins.rst with
  | true => simp [State.handshake_of_rst hrst]
  | false => cases hf : s.fault <;> simp [State.handshake, hrst, hf]

/-- The FDC is ready exactly when nothing is in flight, no fault is recorded and there is no reset. -/
theorem State.cmdReady_eq_true_iff (s : State) :
    s.cmdReady = some true ↔ s.pins.rst = false ∧ s.fault = none ∧ s.rsp = none := by
  rw [State.cmdReady, State.handshake_eq_true_iff, Option.isNone_iff_eq_none]

/-- A response is offered exactly when one is pending, no fault is recorded and there is no reset. -/
theorem State.rspValid_eq_true_iff (s : State) :
    s.rspValid = some true ↔ s.pins.rst = false ∧ s.fault = none ∧ s.rsp.isSome = true := by
  rw [State.rspValid, State.handshake_eq_true_iff]

theorem State.offered_of_valid {s : State} (h : s.rspValid = some true) : s.offered = s.rsp := if_pos h

theorem State.offered_of_not_valid {s : State} (h : s.rspValid ≠ some true) : s.offered = none := if_neg h

/-- With a response pending the FDC is not ready, in reset too. -/
theorem State.cmdReady_of_pending {s : State} {r : Response} (hr : s.rsp = some r) (hf : s.fault = none) :
    s.cmdReady = some false := by
  cases hrst : s.pins.rst with
  | true => exact State.handshake_of_rst hrst _
  | false => rw [State.cmdReady, State.handshake_eq_some hrst hf, hr]; rfl

/-- Settles O26: `rsp_status` is the code of one of the six statuses. -/
theorem statusCodesAreZeroToFive : Obligations.StatusCodesAreZeroToFive := by
  refine ⟨rfl, rfl, rfl, rfl, rfl, rfl, fun s c hc => ?_⟩
  obtain ⟨r, -, rfl⟩ := Option.map_eq_some_iff.1 hc
  cases r.status <;> decide

/-! ### How a command ends (R60, R146) -/

section Outcomes
variable {P : Result → Prop} {s : State} (hfault : P (.fault .divisorZero)) (hraise : ∀ e, e ≠ .ok → P (raise e s))
include hfault

theorem unlessDivisorZero_induction {d : Word} {body : Result} (hbody : P body) : P (unlessDivisorZero d body) := by
  by_cases h0 : d = 0#64
  · rw [h0, unlessDivisorZero_zero]
    exact hfault
  · rwa [unlessDivisorZero_of_ne h0]

include hraise

theorem checkFree_induction {k : Nat} {body : Unit → Result} (hbody : P (body ())) :
    P (afterChecks (checkFree k s) body) := by
  rcases checkFree_cases k s with ⟨-, hc⟩ | ⟨d, -, hc⟩ | ⟨-, hc⟩ | ⟨-, hc⟩ <;> rw [hc]
  · exact hraise .eRange (by decide)
  · exact hraise .eBusy (by decide)
  · exact hbody
  · exact hfault

theorem checkDivider_induction {k : Nat} {body : Divider → Result} (hbody : ∀ d, P (body d)) :
    P (afterChecks (checkDivider k s) body) := by
  rcases checkDivider_cases k s with ⟨-, hc⟩ | ⟨-, hc⟩ | ⟨d, -, hc⟩ | ⟨-, hc⟩ <;> rw [hc]
  · exact hraise .eRange (by decide)
  · exact hraise .eUninit (by decide)
  · exact hbody d
  · exact hfault

theorem checkFullDivider_induction {k : Nat} {body : Divider → Result} (hbody : ∀ d, P (body d)) :
    P (afterChecks (checkFullDivider k s) body) := by
  rw [afterChecks_checkFullDivider]
  refine checkDivider_induction hfault hraise fun d => ?_
  split
  · exact hraise .eNomod (by decide)
  · exact hbody d

/-- Every command ends undefined, in an error status, or with OK and the results its row has (R60). -/
theorem exec_induction (i : Instr)
    (hok : ∀ a b u, a.isSome = hasFirstResult i → b.isSome = hasSecondResult i → P (respond a b u)) :
    P (exec i s) := by
  cases i with
  | constructF k =>
    exact checkFree_induction hfault hraise (unlessDivisorZero_induction hfault (hok _ _ _ rfl rfl))
  | constructL k =>
    exact checkFree_induction hfault hraise (unlessDivisorZero_induction hfault (hok _ _ _ rfl rfl))
  | release k => exact checkDivider_induction hfault hraise fun _ => hok _ _ _ rfl rfl
  | getdiv k => exact checkDivider_induction hfault hraise fun _ => hok _ _ _ rfl rfl
  | div k => exact checkDivider_induction hfault hraise fun _ => hok _ _ _ rfl rfl
  | mod k => exact checkFullDivider_induction hfault hraise fun _ => hok _ _ _ rfl rfl
  | divmod k => exact checkFullDivider_induction hfault hraise fun _ => hok _ _ _ rfl rfl
  | div1F => exact unlessDivisorZero_induction hfault (hok _ _ _ rfl rfl)
  | div1L => exact unlessDivisorZero_induction hfault (hok _ _ _ rfl rfl)
  | mod1 => exact unlessDivisorZero_induction hfault (hok _ _ _ rfl rfl)
  | divmod1 => exact unlessDivisorZero_induction hfault (hok _ _ _ rfl rfl)

end Outcomes

/-- No command is refused: the model gives every command a meaning. -/
theorem exec_ne_refused (i : Instr) (s : State) (why : Refusal) : exec i s ≠ .refused why :=
  exec_induction (P := (· ≠ .refused why)) nofun (fun _ _ => nofun) i fun _ _ _ _ _ => nofun

/-- A response's result fields are driven exactly with OK and a command that has them (R60). -/
def DrivesResultsOf (i : Instr) (o : Result) : Prop :=
  ∀ t r, o = .next t → t.rsp = some r →
    (r.res0.isSome = true ↔ r.status = .ok ∧ hasFirstResult i = true) ∧
      (r.res1.isSome = true ↔ r.status = .ok ∧ hasSecondResult i = true)

theorem exec_drivesResults (i : Instr) (s : State) : DrivesResultsOf i (exec i s) := by
  refine exec_induction (P := DrivesResultsOf i) (fun _ _ h => nomatch h) ?_ i ?_
  · rintro e he _ _ ⟨⟩ ⟨⟩
    simp [he]
  · rintro a b u ha hb _ _ ⟨⟩ ⟨⟩
    simp [ha, hb]

/-- Settles O27: the outputs in each of their cases, and the result fields of every command's response. -/
theorem resultFieldsDrivenExactlyWhenTheyExist : Obligations.ResultFieldsDrivenExactlyWhenTheyExist := by
  refine ⟨fun s r hr hrst hf => ?_, fun s hv => ?_, fun s hr hrst hf => ?_, fun s hrst => ?_, fun s hv => ?_,
    fun i s t r h hr => exec_drivesResults i s t r h hr⟩
  · have hv : s.rspValid = some true := s.rspValid_eq_true_iff.2 ⟨hrst, hf, by rw [hr]; rfl⟩
    refine ⟨hv, State.cmdReady_of_pending hr hf, ?_, ?_, ?_⟩ <;>
      simp [State.rspStatus, State.rspRes0, State.rspRes1, State.offered_of_valid hv, hr]
  · simp [State.rspStatus, State.rspRes0, State.rspRes1, State.offered_of_not_valid hv]
  · constructor
    · rw [State.rspValid, State.handshake_eq_some hrst hf, hr]; rfl
    · exact s.cmdReady_eq_true_iff.2 ⟨hrst, hf, hr⟩
  · exact ⟨State.handshake_of_rst hrst _, State.handshake_of_rst hrst _⟩
  · obtain ⟨-, -, hr⟩ := s.rspValid_eq_true_iff.1 hv
    simpa [State.rspStatus, State.offered_of_valid hv] using hr

/-! ### A step that accepts a command (R50, R59) -/

/-- A word is accepted exactly when the host presents it and the FDC is ready (R50). -/
theorem moment_accepted_iff_ready (s : State) (w : CmdWord) :
    s.moment = .accepted w ↔ s.pins.cmdValid = true ∧ s.cmdReady = some true ∧ s.pins.cmdWord = w := by
  rw [moment_accepted_iff, State.cmdReady_eq_true_iff]
  tauto

theorem step_of_accepted_command {s : State} {w : CmdWord} {i : Instr} (hm : s.moment = .accepted w)
    (hd : decode w = .command i) : step s = afterMoment (recordingFault s (exec i s)) := by
  simp only [step, hm, runWord, hd]

/-- Settles O11: the word presented is accepted, and its outcome is the step's. -/
theorem stepRunsTheAcceptedCommand : Obligations.StepRunsTheAcceptedCommand := by
  refine ⟨fun s i hready hvalid hd => ?_, fun t => ⟨t.hostMoves_slots, t.hostMoves_rsp, t.hostMoves_fault⟩⟩
  rw [step_of_accepted_command ((moment_accepted_iff_ready s _).2 ⟨hvalid, hready, rfl⟩) hd]
  cases exec i s <;> rfl

/-- A step that accepts a word goes on with one response pending, or with the fault of an undefined command recorded. -/
theorem step_of_accepted {s : State} {w : CmdWord} (hm : s.moment = .accepted w) :
    ∃ t, step s = .next t ∧ ((∃ r, t.rsp = some r) ∨ t.fault = some .divisorZero) := by
  cases hd : decode w with
  | illegal why => exact ⟨_, step_of_accepted_illegal hm hd, .inl ⟨_, by simp; rfl⟩⟩
  | command i =>
    rw [step_of_accepted_command hm hd]
    cases he : exec i s with
    | next t =>
      obtain ⟨-, -, -, r, hr⟩ := exec_next_frame he
      exact ⟨t.hostMoves, rfl, .inl ⟨r, by simpa using hr⟩⟩
    | fault f =>
      cases f
      exact ⟨(s.recordFault .divisorZero).hostMoves, rfl, .inr (by simp)⟩
    | refused why => exact absurd he (exec_ne_refused i s why)

/-! ### A step that accepts nothing (R51, R160, R161) -/

/-- What a moment without an accepted command leaves, before the host moves: reset empties the FDC, a response that
can be taken is dropped, and everything else stays. -/
def State.afterIdle (s : State) : State :=
  if s.pins.rst = true then s.applyReset
  else if s.fault = none ∧ s.pins.rspReady = true then s.dropResponse
  else s

theorem State.dropResponse_of_none {s : State} (h : s.rsp = none) : s.dropResponse = s := by
  cases s; cases h; rfl

/-- When nothing is transferred (R50, R51). -/
theorem moment_nothing {s : State} (h : s.moment = .nothing) :
    s.pins.rst = false ∧ s.fault = none ∧ (s.pins.rspReady = true → s.rsp = none) := by
  have hrst : s.pins.rst = false := by
    by_contra hne
    rw [(moment_inReset_iff s).2 (Bool.eq_true_of_not_eq_false hne)] at h
    contradiction
  have hf : s.fault = none := by
    by_contra hne
    rw [(moment_undefined_iff s).2 ⟨hrst, Option.isSome_iff_ne_none.2 hne⟩] at h
    contradiction
  refine ⟨hrst, hf, fun hready => ?_⟩
  by_contra hne
  rw [(moment_taken_iff s).2 ⟨hrst, hf, Option.ne_none_iff_exists'.1 hne, hready⟩] at h
  contradiction

/-- A step that accepts nothing goes on, whatever else happens at its moment. -/
theorem step_of_not_accepted {s : State} (h : s.cmdReady = some true → s.pins.cmdValid = false) :
    step s = .next s.afterIdle.hostMoves := by
  rw [step]
  rcases hm : s.moment with _ | _ | _ | w | _
  · have hrst := (moment_inReset_iff s).1 hm
    simp [afterMoment, State.afterIdle, hrst]
  · obtain ⟨hrst, hf⟩ := (moment_undefined_iff s).1 hm
    simp [afterMoment, State.afterIdle, hrst, Option.isSome_iff_ne_none.1 hf]
  · obtain ⟨hrst, hf, -, hready⟩ := (moment_taken_iff s).1 hm
    simp [afterMoment, State.afterIdle, hrst, hf, hready]
  · obtain ⟨hvalid, hready, -⟩ := (moment_accepted_iff_ready s w).1 hm
    simp [h hready] at hvalid
  · obtain ⟨hrst, hf, hnone⟩ := moment_nothing hm
    cases hready : s.pins.rspReady with
    | false => simp [afterMoment, State.afterIdle, hrst, hready]
    | true => simp [afterMoment, State.afterIdle, hrst, hf, hready, State.dropResponse_of_none (hnone hready)]

/-- With a response pending nothing is accepted. -/
theorem step_of_pending {s : State} {r : Response} (hr : s.rsp = some r) (hf : s.fault = none) :
    step s = .next s.afterIdle.hostMoves := by
  refine step_of_not_accepted fun hready => ?_
  rw [State.cmdReady_of_pending hr hf] at hready
  contradiction

/-- Settles O13, by the one thing a step can do with a response pending. -/
theorem responseStaysUntilTaken : Obligations.ResponseStaysUntilTaken := by
  intro s r hr hf
  refine ⟨_, step_of_pending hr hf, ?_⟩
  cases hrst : s.pins.rst with
  | true => simp [State.afterIdle, hrst]
  | false => cases hready : s.pins.rspReady <;> simp [State.afterIdle, hrst, hready, hr, hf]

/-- A pending response is gone after a step exactly when it was taken or the FDC was reset (R51, R161). -/
theorem afterIdle_rsp_eq_none_iff {s : State} {r : Response} (hr : s.rsp = some r) (hf : s.fault = none) :
    s.afterIdle.rsp = none ↔ s.moment = .responseTaken ∨ s.pins.rst = true := by
  rw [moment_taken_iff]
  cases hrst : s.pins.rst with
  | true => simp [State.afterIdle, hrst]
  | false => cases hready : s.pins.rspReady <;> simp [State.afterIdle, hrst, hready, hr, hf]

/-- Of the pins only `rst` and `rsp_ready` reach the FDC at a moment without an accepted command (R50). -/
theorem afterIdle_of_pins {s u : State} (hslots : u.slots = s.slots) (hrsp : u.rsp = s.rsp) (hf : u.fault = s.fault)
    (hrst : u.pins.rst = s.pins.rst) (hready : u.pins.rspReady = s.pins.rspReady) :
    u.afterIdle.slots = s.afterIdle.slots ∧ u.afterIdle.rsp = s.afterIdle.rsp ∧
      u.afterIdle.fault = s.afterIdle.fault := by
  unfold State.afterIdle
  rw [hrst, hready, hf]
  split
  · simp [hslots]
  · split <;> simp [hslots, hrsp, hf]

/-- Settles O12: acceptance, what it leaves, and what a step without it can do. -/
theorem oneCommandInFlight : Obligations.OneCommandInFlight := by
  refine ⟨moment_accepted_iff_ready, fun s w hm => ?_, fun s r hr hf => ?_, fun s p hvalid hrst hready => ?_⟩
  · obtain ⟨-, -, hnone, -⟩ := (moment_accepted_iff s w).1 hm
    obtain ⟨t, ht, hout⟩ := step_of_accepted hm
    refine ⟨hnone, t, ht, fun hready => ?_, hout⟩
    obtain ⟨-, hf, hr⟩ := t.cmdReady_eq_true_iff.1 hready
    simp [hf, hr] at hout
  · refine ⟨State.cmdReady_of_pending hr hf, _, step_of_pending hr hf, ?_⟩
    rw [State.hostMoves_rsp]
    exact afterIdle_rsp_eq_none_iff hr hf
  · have hsame : ({ s with pins := p } : State).cmdReady = s.cmdReady := by
      simp only [State.cmdReady, State.handshake, hrst]
    refine ⟨_, _, step_of_not_accepted fun h => (hvalid h).1,
      step_of_not_accepted fun h => (hvalid (hsame.symm.trans h)).2, ?_⟩
    simpa using afterIdle_of_pins (s := s) (u := { s with pins := p }) rfl rfl rfl hrst hready

/-! ### Unused operands (R57) -/

/-- An outcome with other values on the operand ports, where it goes on. -/
def withOperandsAfter (a b : Word) : Result → Result
  | .next t => .next (t.withOperands a b)
  | .fault f => .fault f
  | .refused why => .refused why

section WithOperands
variable {s : State} {k : Nat} (a b : Word)

theorem afterChecks_checkFree_withOperands {f g : Unit → Result} (hbody : f () = withOperandsAfter a b (g ())) :
    afterChecks (checkFree k (s.withOperands a b)) f = withOperandsAfter a b (afterChecks (checkFree k s) g) := by
  have hslot : (s.withOperands a b).slotAt k = s.slotAt k := s.withOperands_slotAt k a b
  rcases checkFree_cases k s with ⟨hs, hc⟩ | ⟨d, hs, hc⟩ | ⟨hs, hc⟩ | ⟨hs, hc⟩ <;> rw [hc]
  · rw [checkFree_range (hslot.trans hs)]; rfl
  · rw [checkFree_busy (hslot.trans hs)]; rfl
  · rw [checkFree_ok (hslot.trans hs)]; exact hbody
  · rw [checkFree_noValue (hslot.trans hs)]; rfl

theorem afterChecks_checkDivider_withOperands {f g : Divider → Result}
    (hbody : ∀ d, f d = withOperandsAfter a b (g d)) :
    afterChecks (checkDivider k (s.withOperands a b)) f =
      withOperandsAfter a b (afterChecks (checkDivider k s) g) := by
  have hslot : (s.withOperands a b).slotAt k = s.slotAt k := s.withOperands_slotAt k a b
  rcases checkDivider_cases k s with ⟨hs, hc⟩ | ⟨hs, hc⟩ | ⟨d, hs, hc⟩ | ⟨hs, hc⟩ <;> rw [hc]
  · rw [checkDivider_range (hslot.trans hs)]; rfl
  · rw [checkDivider_uninit (hslot.trans hs)]; rfl
  · rw [checkDivider_ok (hslot.trans hs)]; exact hbody d
  · rw [checkDivider_noValue (hslot.trans hs)]; rfl

theorem afterChecks_checkFullDivider_withOperands {f g : Divider → Result}
    (hbody : ∀ d, f d = withOperandsAfter a b (g d)) :
    afterChecks (checkFullDivider k (s.withOperands a b)) f =
      withOperandsAfter a b (afterChecks (checkFullDivider k s) g) := by
  rw [afterChecks_checkFullDivider, afterChecks_checkFullDivider]
  refine afterChecks_checkDivider_withOperands a b fun d => ?_
  split
  · rfl
  · exact hbody d

theorem unlessDivisorZero_withOperands {body body' : Result} (d : Word) (hbody : body' = withOperandsAfter a b body) :
    unlessDivisorZero d body' = withOperandsAfter a b (unlessDivisorZero d body) := by
  by_cases h0 : d = 0#64
  · rw [h0, unlessDivisorZero_zero, unlessDivisorZero_zero]; rfl
  · rw [unlessDivisorZero_of_ne h0, unlessDivisorZero_of_ne h0, hbody]

/-- CONSTRUCT uses OPA alone (R57). -/
theorem construct_withOperands (v : Variant) :
    construct v k (s.withOperands (s.operand .opa) b) =
      withOperandsAfter (s.operand .opa) b (construct v k s) :=
  afterChecks_checkFree_withOperands _ b (unlessDivisorZero_withOperands _ b (s.operand .opa) rfl)

/-- A one-shot command uses both operands (R57), so that none is left to change. -/
theorem oneShot_withOperands (res : Word → Word → Option Word × Option Word) :
    oneShot (s.withOperands (s.operand .opa) (s.operand .opb))
        (fun n d => respond (res n d).1 (res n d).2 (s.withOperands (s.operand .opa) (s.operand .opb))) =
      withOperandsAfter (s.operand .opa) (s.operand .opb)
        (oneShot s fun n d => respond (res n d).1 (res n d).2 s) :=
  unlessDivisorZero_withOperands _ _ (s.operand .opb) rfl

end WithOperands

/-- A command with other values in the operands it does not use ends as it did, but for those pins. -/
theorem exec_withOperands {i : Instr} {s : State} {a b : Word} (ha : usesPort i .opa → a = s.operand .opa)
    (hb : usesPort i .opb → b = s.operand .opb) :
    exec i (s.withOperands a b) = withOperandsAfter a b (exec i s) := by
  cases i with
  | constructF k =>
    obtain rfl := ha (.inl rfl)
    exact construct_withOperands b .full
  | constructL k =>
    obtain rfl := ha (.inl rfl)
    exact construct_withOperands b .lean
  | release k => exact afterChecks_checkDivider_withOperands a b fun _ => rfl
  | getdiv k => exact afterChecks_checkDivider_withOperands a b fun _ => rfl
  | div k =>
    obtain rfl := ha (.inr rfl)
    exact afterChecks_checkDivider_withOperands _ b fun _ => rfl
  | mod k =>
    obtain rfl := ha (.inr rfl)
    exact afterChecks_checkFullDivider_withOperands _ b fun _ => rfl
  | divmod k =>
    obtain rfl := ha (.inr rfl)
    exact afterChecks_checkFullDivider_withOperands _ b fun _ => rfl
  | div1F =>
    obtain rfl := ha (.inr rfl)
    obtain rfl := hb (.inl rfl)
    exact oneShot_withOperands fun n d => (some (divideF n d (solve .full d)), none)
  | div1L =>
    obtain rfl := ha (.inr rfl)
    obtain rfl := hb (.inl rfl)
    exact oneShot_withOperands fun n d => (some (applyLean n (neg64 d) (solve .lean d)), none)
  | mod1 =>
    obtain rfl := ha (.inr rfl)
    obtain rfl := hb (.inl rfl)
    exact oneShot_withOperands fun n d => (some (moduloF n d (solve .full d)), none)
  | divmod1 =>
    obtain rfl := ha (.inr rfl)
    obtain rfl := hb (.inl rfl)
    exact oneShot_withOperands fun n d => (some (divModF n d (solve .full d)).1, some (divModF n d (solve .full d)).2)

/-- Settles O30: the outcome with other unused operands is the outcome, with those operands on the pins. -/
theorem unusedOperandsAreIgnored : Obligations.UnusedOperandsAreIgnored := by
  intro i s a b ha hb
  rw [exec_withOperands ha hb]
  exact ⟨fun t h => by rw [h]; rfl, fun f h => by rw [h]; rfl⟩

end Sys2Proof.Machine

/-! PROOFS. The statements of 40_solver.md: the closed form of the magic constant (R72, R80), the seed (R74), the
rounds (R75 to R77), the fix-up (R78), and that the datapath computes the closed form (R79). -/

namespace Sys2Proof.Machine

/-! ### The closed form (R72, R80) -/

/-- The magic constant is the largest 64-bit value that does not over-estimate the reciprocal. -/
theorem le_magic_iff {d : Word} (hd : d ≠ 0#64) {c : Nat} :
    c ≤ (magic d).toNat ↔ c * d.toNat ≤ 2 ^ 64 ∧ c < 2 ^ 64 := by
  rw [magic_toNat, le_min_iff, Nat.le_div_iff_mul_le (toNat_pos hd), Nat.le_sub_one_iff_lt (by decide)]

theorem magic_mul_le {d : Word} (hd : d ≠ 0#64) : (magic d).toNat * d.toNat ≤ 2 ^ 64 :=
  ((le_magic_iff hd).1 le_rfl).1

theorem one_le_magic {d : Word} (hd : d ≠ 0#64) : 1 ≤ (magic d).toNat :=
  (le_magic_iff hd).2 ⟨by rw [Nat.one_mul]; exact d.isLt.le, by decide⟩

theorem magic_eq_one_iff {d : Word} (hd : d ≠ 0#64) : (magic d).toNat = 1 ↔ 2 ^ 63 < d.toNat := by
  have htwo := le_magic_iff hd (c := 2)
  have hone := one_le_magic hd
  omega

theorem magic_anti {d d' : Word} (hd : d ≠ 0#64) (h : d.toNat ≤ d'.toNat) :
    (magic d').toNat ≤ (magic d).toNat := by
  have hd' : d' ≠ 0#64 := by
    rintro rfl
    exact (toNat_pos hd).ne' (Nat.le_zero.1 h)
  exact (le_magic_iff hd).2 ⟨(Nat.mul_le_mul_left _ h).trans (magic_mul_le hd'), (magic d').isLt⟩

/-- Only D = 1 saturates. -/
theorem magic_toNat_of_two_le {d : Word} (h : 2 ≤ d.toNat) : (magic d).toNat = 2 ^ 64 / d.toNat := by
  have hdiv : 2 ^ 64 / d.toNat ≤ 2 ^ 64 / 2 := Nat.div_le_div_left h (by decide)
  rw [magic_toNat]
  omega

theorem magic_shortfall_of_two_le {d : Word} (h : 2 ≤ d.toNat) :
    2 ^ 64 - (magic d).toNat * d.toNat = 2 ^ 64 % d.toNat := by
  rw [magic_toNat_of_two_le h, Nat.mod_eq_sub_div_mul]

theorem magic_shortfall_of_one {d : Word} (h : d.toNat = 1) : 2 ^ 64 - (magic d).toNat * d.toNat = 1 := by
  simp [magic_toNat, h]

/-- The divisors of 2^64 below 2^64 are the powers of two a word can hold. -/
theorem two_pow_64_mod_eq_zero_iff (d : Word) : 2 ^ 64 % d.toNat = 0 ↔ ∃ k, d.toNat = 2 ^ k := by
  rw [← Nat.dvd_iff_mod_eq_zero]
  constructor
  · intro hdvd
    obtain ⟨k, -, hk⟩ := (Nat.dvd_prime_pow Nat.prime_two).1 hdvd
    exact ⟨k, hk⟩
  · rintro ⟨k, hk⟩
    have hlt : 2 ^ k < 2 ^ 64 := hk ▸ d.isLt
    rw [hk]
    exact Nat.pow_dvd_pow 2 ((Nat.pow_lt_pow_iff_right (by decide)).1 hlt).le

/-- Settles O48: the bounds from the maximality of the magic constant, the shortfall as a remainder. -/
theorem magicConstantClosedForm : Obligations.MagicConstantClosedForm := by
  refine ⟨fun v d hd => ⟨?_, one_le_magic hd, magic_eq_one_iff hd, magic_mul_le hd, fun h => ⟨?_, ?_⟩,
    magic_shortfall_of_one⟩, fun d d' hd h => magic_anti hd h, by decide⟩
  · rw [solve_eq_magic, magic_toNat]
  · rw [magic_shortfall_of_two_le h]
    exact Nat.le_sub_one_of_lt (Nat.mod_lt _ (toNat_pos hd))
  · rw [magic_shortfall_of_two_le h]
    exact two_pow_64_mod_eq_zero_iff d

/-- Settles O49: the shortfall is a remainder for D of 2 or more, and D itself for D = 1. -/
theorem magicMeetsTheApplicatorsDemands : Obligations.MagicMeetsTheApplicatorsDemands := by
  intro d hd
  refine ⟨magic_mul_le hd, ?_⟩
  rcases Nat.lt_or_ge d.toNat 2 with h | h
  · have hone : d.toNat = 1 := by have := toNat_pos hd; omega
    rw [magic_shortfall_of_one hone, hone]
  · rw [magic_shortfall_of_two_le h]
    exact (Nat.mod_lt _ (toNat_pos hd)).le

/-! ### Candidates and the residual (R75) -/

/-- A candidate of 1 or more that does not over-estimate the reciprocal (the premise of R75 and R76). -/
structure Candidate (d c : Word) : Prop where
  one_le : 1 ≤ c.toNat
  mul_le : c.toNat * d.toNat ≤ 2 ^ 64

/-- A multiple of a negated value is the negated multiple, while that does not exceed 2^64: the product is it and
`b − 1` times 2^64. -/
theorem negated_mul_mod {a b : Nat} (ha : 0 < a) (hb : 0 < b) (hle : a * b ≤ 2 ^ 64) :
    (2 ^ 64 - a) * b % 2 ^ 64 = 2 ^ 64 - a * b := by
  have hpos : 0 < a * b := Nat.mul_pos ha hb
  have hsplit : (2 ^ 64 - a) * b = 2 ^ 64 - a * b + 2 ^ 64 * (b - 1) := by
    rw [Nat.sub_mul]
    omega
  rw [hsplit, Nat.add_mul_mod_self_left, Nat.mod_eq_of_lt (by omega)]

/-- The Newton-Raphson identity, with the remainder that the high half drops: the error `e` of `c` turns into
`e² + d·(c·e mod w)`, scaled by `w`. -/
theorem newton_identity {w c d e : Nat} (h : e + c * d = w) :
    e ^ 2 + d * (c * e % w) + (c + c * e / w) * d * w = w * w := by
  calc e ^ 2 + d * (c * e % w) + (c + c * e / w) * d * w
      = e ^ 2 + c * d * w + d * (w * (c * e / w) + c * e % w) := by ring
    _ = e ^ 2 + c * d * w + d * (c * e) := by rw [Nat.div_add_mod]
    _ = w * w := by subst h; ring

section Round
variable {d c : Word} (hd : d ≠ 0#64)
include hd

theorem Candidate.residualOf_toNat (h : Candidate d c) :
    (residualOf d c).toNat = 2 ^ 64 - c.toNat * d.toNat := by
  have hle : d.toNat * c.toNat ≤ 2 ^ 64 := (Nat.mul_comm _ _).trans_le h.mul_le
  rw [residualOf, mullo_toNat, neg64_toNat_of_ne hd, Nat.mul_comm c.toNat, Nat.mul_comm c.toNat,
    negated_mul_mod (toNat_pos hd) h.one_le hle]

theorem Candidate.residualOf_add (h : Candidate d c) :
    (residualOf d c).toNat + c.toNat * d.toNat = 2 ^ 64 := by
  rw [h.residualOf_toNat hd, Nat.sub_add_cancel h.mul_le]

/-! ### One round (R76) -/

/-- The correction is less than the residual, unless both are 0, and the residual is at most 2^64 − c. -/
theorem Candidate.round_lt (h : Candidate d c) :
    c.toNat + c.toNat * (residualOf d c).toNat / 2 ^ 64 < 2 ^ 64 := by
  have hsum := h.residualOf_add hd
  have hmul : c.toNat ≤ c.toNat * d.toNat := Nat.le_mul_of_pos_right _ (toNat_pos hd)
  rcases Nat.eq_zero_or_pos (residualOf d c).toNat with h0 | hpos
  · simpa [h0] using c.isLt
  · have hcorr : c.toNat * (residualOf d c).toNat / 2 ^ 64 < (residualOf d c).toNat :=
      Nat.div_lt_of_lt_mul (Nat.mul_lt_mul_of_pos_right c.isLt hpos)
    omega

theorem Candidate.round_toNat (h : Candidate d c) :
    (refineRound d c).toNat = c.toNat + c.toNat * (residualOf d c).toNat / 2 ^ 64 := by
  rw [refineRound, add64_sum_toNat, mulhi_toNat, Nat.mod_eq_of_lt (h.round_lt hd)]

theorem Candidate.le_round (h : Candidate d c) : c.toNat ≤ (refineRound d c).toNat := by
  rw [h.round_toNat hd]
  exact Nat.le_add_right _ _

theorem Candidate.round_eq_self_iff (h : Candidate d c) :
    refineRound d c = c ↔ c.toNat * (residualOf d c).toNat < 2 ^ 64 := by
  rw [← BitVec.toNat_inj, h.round_toNat hd, Nat.add_eq_left, Nat.div_eq_zero_iff_lt (by decide)]

theorem Candidate.round_identity (h : Candidate d c) :
    (residualOf d c).toNat ^ 2 + d.toNat * (c.toNat * (residualOf d c).toNat % 2 ^ 64)
      + (refineRound d c).toNat * d.toNat * 2 ^ 64 = 2 ^ 64 * 2 ^ 64 := by
  rw [h.round_toNat hd]
  exact newton_identity (h.residualOf_add hd)

/-- R76: a round keeps a candidate a candidate. -/
theorem Candidate.round (h : Candidate d c) : Candidate d (refineRound d c) where
  one_le := h.one_le.trans (h.le_round hd)
  mul_le := Nat.le_of_mul_le_mul_right ((Nat.le_add_left _ _).trans_eq (h.round_identity hd)) (by decide)

/-- The shortfall after a round, exactly: the square of the one before, and what the floor lost. -/
theorem Candidate.round_shortfall (h : Candidate d c) :
    (2 ^ 64 - (refineRound d c).toNat * d.toNat) * 2 ^ 64
      = (2 ^ 64 - c.toNat * d.toNat) ^ 2 + d.toNat * (c.toNat * (residualOf d c).toNat % 2 ^ 64) := by
  rw [Nat.sub_mul, ← h.round_identity hd, Nat.add_sub_cancel, h.residualOf_toNat hd]

theorem Candidate.round_shortfall_lt (h : Candidate d c) :
    (2 ^ 64 - (refineRound d c).toNat * d.toNat) * 2 ^ 64
      < (2 ^ 64 - c.toNat * d.toNat) ^ 2 + d.toNat * 2 ^ 64 := by
  rw [h.round_shortfall hd]
  exact Nat.add_lt_add_left (Nat.mul_lt_mul_of_pos_left (Nat.mod_lt _ (by decide)) (toNat_pos hd)) _

end Round

/-! ### The seed (R73, R74) -/

/-- With the normalised divisor `n` and its distance `x` from `w`: `(2 − d)·d = 1 − (1 − d)²` of R74. -/
theorem seed_product {w n x : Nat} (h : n + x = w) : (w + x) * n + x * x = w * w := by
  subst h
  ring

/-- `(2 − d)·d ≥ 3/4` for d of 1/2 or more. -/
theorem le_seed_product {w n x : Nat} (h : n + x = w) (hx : x ≤ n) : 3 * (w * w) ≤ 4 * ((w + x) * n) := by
  have hsquare : 2 * x * (2 * x) ≤ w * w := Nat.mul_self_le_mul_self (by omega)
  have hproduct := seed_product h
  linarith

/-- The product of the two powers of two that the leading-zero count L gives. -/
theorem two_pow_clz64_mul (d : Word) : 2 ^ (64 - clz64 d) * 2 ^ clz64 d = 2 ^ 64 := by
  rw [← pow_add, Nat.sub_add_cancel ((clz64_le d).trans (by decide))]

/-- The part of the seed below its leading term `2^L`. -/
def seedTail (v : Variant) (d : Word) : Word := shr64 (shr64 (seedBits v d) 1) (63 - clz64 d)

theorem seed_eq_seedTail (v : Variant) (d : Word) :
    seed v d = (add64 (shl64 1#64 (clz64 d)) (seedTail v d)).1 := rfl

theorem seedBits_full_eq (d : Word) : seedBits .full d = seedBits .lean d ||| 1#64 := rfl

/-- The forced bit 0 is dropped by the first shift. -/
theorem seedBits_half (v : Variant) (d : Word) : (seedBits v d).toNat / 2 = (seedBits .lean d).toNat / 2 := by
  cases v with
  | lean => rfl
  | full =>
    rw [seedBits_full_eq, BitVec.toNat_or, Nat.or_div_two]
    exact Nat.or_zero _

/-- The shift by 1 and the shift by 63 − L are one by 64 − L. -/
theorem seedTail_toNat (v : Variant) (d : Word) :
    (seedTail v d).toNat = (seedBits .lean d).toNat / 2 ^ (64 - clz64 d) := by
  have hexp : 64 - clz64 d = 63 - clz64 d + 1 := by have := clz64_le d; omega
  rw [seedTail, shr64_toNat, shr64_toNat, pow_one, seedBits_half, Nat.div_div_eq_div_mul, hexp, pow_succ']

theorem seedTail_lt (v : Variant) (d : Word) : (seedTail v d).toNat < 2 ^ clz64 d := by
  rw [seedTail_toNat]
  exact Nat.div_lt_of_lt_mul ((two_pow_clz64_mul d).symm ▸ (seedBits .lean d).isLt)

theorem shl64_one_clz64_toNat (d : Word) : (shl64 1#64 (clz64 d)).toNat = 2 ^ clz64 d := by
  have hlt : 2 ^ clz64 d < 2 ^ 64 := Nat.pow_lt_pow_right (by decide) (Nat.lt_succ_of_le (clz64_le d))
  rw [shl64_toNat, BitVec.toNat_ofNat, Nat.one_mod, Nat.one_mul, Nat.mod_eq_of_lt hlt]

theorem seed_toNat (v : Variant) (d : Word) : (seed v d).toNat = 2 ^ clz64 d + (seedTail v d).toNat := by
  have hpow : 2 ^ clz64 d ≤ 2 ^ 63 := Nat.pow_le_pow_right (by decide) (clz64_le d)
  have hlt := seedTail_lt v d
  rw [seed_eq_seedTail, add64_sum_toNat, shl64_one_clz64_toNat, Nat.mod_eq_of_lt (by omega)]

/-- The tail lies below the leading bit, so adding it is a bitwise OR. -/
theorem seed_eq_or (v : Variant) (d : Word) : seed v d = shl64 1#64 (clz64 d) ||| seedTail v d := by
  apply BitVec.eq_of_toNat_eq
  have hor := Nat.two_pow_add_eq_or_of_lt (seedTail_lt v d) 1
  rw [Nat.mul_one] at hor
  rw [seed_toNat, BitVec.toNat_or, shl64_one_clz64_toNat, hor]

/-- C2 of 90_conflicts.md: forcing the seed odd has no effect. -/
theorem seed_eq_seed_lean (v : Variant) (d : Word) : seed v d = seed .lean d := by
  apply BitVec.eq_of_toNat_eq
  rw [seed_toNat, seed_toNat, seedTail_toNat, seedTail_toNat]

/-- `c0 = ⌊(2^64 + x0) / 2^(64−L)⌋` (R74). -/
theorem seed_toNat_eq_div (v : Variant) (d : Word) :
    (seed v d).toNat = (2 ^ 64 + (seedBits .lean d).toNat) / 2 ^ (64 - clz64 d) := by
  rw [seed_toNat, seedTail_toNat, ← two_pow_clz64_mul d, Nat.mul_add_div (Nat.two_pow_pos _)]

theorem seedTail_eq_zero {d : Word} (v : Variant) (hL : clz64 d = 0) : seedTail v d = 0#64 := by
  have hlt := seedTail_lt v d
  rw [hL, pow_zero, Nat.lt_one_iff] at hlt
  exact BitVec.eq_of_toNat_eq hlt

section Seed
variable {d : Word} (hd : d ≠ 0#64)
include hd

/-- The normalised divisor lies in [2^63, 2^64). -/
theorem normalised_bounds : 2 ^ 63 ≤ d.toNat * 2 ^ clz64 d ∧ d.toNat * 2 ^ clz64 d < 2 ^ 64 := by
  obtain ⟨hlo, hhi⟩ := clz64_brackets hd
  constructor
  · calc 2 ^ 63 = 2 ^ (63 - clz64 d) * 2 ^ clz64 d := by rw [← pow_add, Nat.sub_add_cancel (clz64_le d)]
      _ ≤ d.toNat * 2 ^ clz64 d := Nat.mul_le_mul_right _ hlo
  · calc d.toNat * 2 ^ clz64 d < 2 ^ (64 - clz64 d) * 2 ^ clz64 d :=
          Nat.mul_lt_mul_of_pos_right hhi (Nat.two_pow_pos _)
      _ = 2 ^ 64 := two_pow_clz64_mul d

theorem seedBits_lean_toNat : (seedBits .lean d).toNat = 2 ^ 64 - d.toNat * 2 ^ clz64 d := by
  have hshift : (seedBits .lean d).toNat = (neg64 d).toNat * 2 ^ clz64 d % 2 ^ 64 := shl64_toNat _ _
  rw [hshift, neg64_toNat_of_ne hd, negated_mul_mod (toNat_pos hd) (Nat.two_pow_pos _) (normalised_bounds hd).2.le]

theorem seedBits_lean_bounds : 1 ≤ (seedBits .lean d).toNat ∧ (seedBits .lean d).toNat ≤ 2 ^ 63 := by
  have hn := normalised_bounds hd
  rw [seedBits_lean_toNat hd]
  omega

theorem seedTail_le (v : Variant) (hL : 1 ≤ clz64 d) : (seedTail v d).toNat ≤ 2 ^ (clz64 d - 1) := by
  have hpow : 2 ^ (64 - clz64 d) * 2 ^ (clz64 d - 1) = 2 ^ 63 := by
    rw [← pow_add]
    congr 1
    have := clz64_le d
    omega
  rw [seedTail_toNat]
  exact Nat.div_le_of_le_mul (hpow.symm ▸ (seedBits_lean_bounds hd).2)

/-- The normalised divisor and x0 make up 2^64. -/
theorem normalised_add_seedBits : d.toNat * 2 ^ clz64 d + (seedBits .lean d).toNat = 2 ^ 64 := by
  rw [seedBits_lean_toNat hd, Nat.add_sub_cancel' (normalised_bounds hd).2.le]

/-- R74: the seed never over-estimates. -/
theorem seed_mul_le (v : Variant) : (seed v d).toNat * d.toNat ≤ 2 ^ 64 := by
  have hdiv : (seed v d).toNat * 2 ^ (64 - clz64 d) ≤ 2 ^ 64 + (seedBits .lean d).toNat := by
    rw [seed_toNat_eq_div]
    exact Nat.div_mul_le_self _ _
  refine Nat.le_of_mul_le_mul_right ?_ (Nat.two_pow_pos 64)
  calc (seed v d).toNat * d.toNat * 2 ^ 64
      = (seed v d).toNat * 2 ^ (64 - clz64 d) * (d.toNat * 2 ^ clz64 d) := by
        rw [← two_pow_clz64_mul d]; ring
    _ ≤ (2 ^ 64 + (seedBits .lean d).toNat) * (d.toNat * 2 ^ clz64 d) := Nat.mul_le_mul_right _ hdiv
    _ ≤ 2 ^ 64 * 2 ^ 64 :=
        (Nat.le_add_right _ _).trans_eq (seed_product (normalised_add_seedBits hd))

/-- `3/4 < (c0 + 1)·D / 2^64`, from which R74's bound on the error follows. -/
theorem lt_seed_succ_mul (v : Variant) : 3 * 2 ^ 64 < 4 * (((seed v d).toNat + 1) * d.toNat) := by
  have hdiv : 2 ^ 64 + (seedBits .lean d).toNat < ((seed v d).toNat + 1) * 2 ^ (64 - clz64 d) := by
    rw [seed_toNat_eq_div, Nat.mul_comm]
    exact Nat.lt_mul_div_succ _ (Nat.two_pow_pos _)
  obtain ⟨hlo, -⟩ := normalised_bounds hd
  have hx := (seedBits_lean_bounds hd).2.trans hlo
  refine Nat.lt_of_mul_lt_mul_right (a := 2 ^ 64) ?_
  calc 3 * 2 ^ 64 * 2 ^ 64 = 3 * (2 ^ 64 * 2 ^ 64) := Nat.mul_assoc _ _ _
    _ ≤ 4 * ((2 ^ 64 + (seedBits .lean d).toNat) * (d.toNat * 2 ^ clz64 d)) :=
        le_seed_product (normalised_add_seedBits hd) hx
    _ < 4 * (((seed v d).toNat + 1) * 2 ^ (64 - clz64 d) * (d.toNat * 2 ^ clz64 d)) :=
        Nat.mul_lt_mul_of_pos_left (Nat.mul_lt_mul_of_pos_right hdiv (by omega)) (by decide)
    _ = 4 * (((seed v d).toNat + 1) * d.toNat) * 2 ^ 64 := by rw [← two_pow_clz64_mul d]; ring

theorem seed_shortfall_lt (v : Variant) :
    4 * (2 ^ 64 - (seed v d).toNat * d.toNat) < 2 ^ 64 + 4 * d.toNat := by
  have hlt := lt_seed_succ_mul hd v
  rw [Nat.add_mul] at hlt
  omega

theorem seed_candidate (v : Variant) : Candidate d (seed v d) where
  one_le := by
    rw [seed_toNat]
    exact (Nat.one_le_two_pow).trans (Nat.le_add_right _ _)
  mul_le := seed_mul_le hd v

end Seed

/-- Settles O53: the seed is its leading power of two and a tail that the forced bit never reaches. -/
theorem seedApproximatesTheReciprocal : Obligations.SeedApproximatesTheReciprocal := by
  refine ⟨fun d hd => ?_, by decide⟩
  obtain ⟨hone, hle⟩ := seedBits_lean_bounds hd
  refine ⟨seedBits_lean_toNat hd, hone, hle, seedBits_full_eq d,
    fun v => ⟨seedTail_le hd v, seedTail_eq_zero v, seed_eq_or v d⟩, seed_eq_seed_lean .full d,
    fun i => by rw [seed_eq_seed_lean .full], seed_toNat_eq_div .lean d, ?_, fun hL => ?_, fun hL => ?_,
    seed_mul_le hd .lean, seed_shortfall_lt hd .lean⟩
  · exact (seed_toNat .lean d).symm ▸ Nat.le_add_right _ _
  · exact (seed_toNat .lean d).symm ▸ Nat.add_le_add_left (seedTail_le hd .lean hL) _
  · apply BitVec.eq_of_toNat_eq
    rw [seed_toNat, seedTail_eq_zero .lean hL, hL]
    rfl

/-! ### The rounds (R76, R77) -/

theorem refine_succ_last (d : Word) (i : Nat) (c : Word) : refine d (i + 1) c = refineRound d (refine d i c) := by
  induction i generalizing c with
  | zero => rfl
  | succ i ih => exact ih (refineRound d c)

theorem Candidate.refine {d c : Word} (hd : d ≠ 0#64) (h : Candidate d c) (i : Nat) :
    Candidate d (Machine.refine d i c) := by
  induction i with
  | zero => exact h
  | succ i ih =>
    rw [refine_succ_last]
    exact ih.round hd

/-- R77: every candidate of the solver is 1 or more and does not over-estimate. -/
theorem refine_seed_candidate {d : Word} (hd : d ≠ 0#64) (v : Variant) (i : Nat) :
    Candidate d (refine d i (seed v d)) :=
  (seed_candidate hd v).refine hd i

/-- Settles O54: the error of a round by the Newton-Raphson identity, the solver's candidates by induction. -/
theorem roundSquaresTheError : Obligations.RoundSquaresTheError := by
  refine ⟨fun d c hd hone hle => ?_, fun v d i hd _ => ?_, by decide⟩
  · have h : Candidate d c := ⟨hone, hle⟩
    exact ⟨h.residualOf_toNat hd, h.le_round hd, h.round_toNat hd, (h.round hd).mul_le,
      (h.round_shortfall hd).symm ▸ Nat.le_add_right _ _, h.round_shortfall_lt hd, h.round_eq_self_iff hd⟩
  · have h := refine_seed_candidate hd v i
    exact ⟨h.one_le, h.mul_le⟩

/-- The shortfall of `c`, in parts of 2^64, is below `1/k + (2 − 4/k)·D/2^64`: as a function of `D/2^64` this is the
line through `1/k` at 0 and `1/2` at 1/4. -/
def ShortfallBelowLine (k : Nat) (d c : Word) : Prop :=
  k * (2 ^ 64 - c.toNat * d.toNat) + 4 * d.toNat < 2 ^ 64 + 2 * k * d.toNat

theorem seed_shortfallBelowLine {d : Word} (hd : d ≠ 0#64) (v : Variant) : ShortfallBelowLine 4 d (seed v d) := by
  have h := seed_shortfall_lt hd v
  unfold ShortfallBelowLine
  omega

/-- Squaring the error squares `k`. The square of a line plus `D/2^64` is convex in `D/2^64` and meets the line for
`k²` at 0 and at 1/4, so it lies below it in between. -/
theorem line_square {w d e e' k : Nat} (hw : 4 * d ≤ w) (h : k * e + 4 * d < w + 2 * k * d)
    (hround : e' * w < e ^ 2 + d * w) : k ^ 2 * e' + 4 * d < w + 2 * k ^ 2 * d := by
  refine Nat.lt_of_mul_lt_mul_right (a := w) ?_
  zify at *
  have hsquare : ((k : ℤ) * e) ^ 2 < (w + 2 * k * d - 4 * d) ^ 2 :=
    pow_lt_pow_left₀ (by linarith) (by positivity) (by decide)
  have hconvex : 0 ≤ (d : ℤ) * (w - 4 * d) * (k - 2) ^ 2 :=
    mul_nonneg (mul_nonneg (Int.natCast_nonneg d) (by linarith)) (sq_nonneg _)
  have hscaled : (k : ℤ) ^ 2 * (e' * w) ≤ k ^ 2 * (e ^ 2 + d * w) :=
    mul_le_mul_of_nonneg_left hround.le (sq_nonneg _)
  linarith

theorem Candidate.round_shortfallBelowLine {d c : Word} {k : Nat} (hd : d ≠ 0#64) (hw : 4 * d.toNat ≤ 2 ^ 64)
    (hc : Candidate d c) (h : ShortfallBelowLine k d c) : ShortfallBelowLine (k ^ 2) d (refineRound d c) :=
  line_square hw h (hc.round_shortfall_lt hd)

theorem refine_seed_shortfallBelowLine {d : Word} (hd : d ≠ 0#64) (hw : 4 * d.toNat ≤ 2 ^ 64) (v : Variant)
    (i : Nat) :
    ShortfallBelowLine (4 ^ 2 ^ i) d (refine d i (seed v d)) := by
  induction i with
  | zero => exact seed_shortfallBelowLine hd v
  | succ i ih =>
    rw [refine_succ_last, pow_succ, pow_mul]
    exact (refine_seed_candidate hd v i).round_shortfallBelowLine hd hw ih

/-- After five rounds `k` is 2^64, so the shortfall is at most 2·D. Where D is above 2^62 the reciprocal is below 4,
and every candidate is at most two low. -/
theorem lt_refined_add_three_mul {d : Word} (hd : d ≠ 0#64) (v : Variant) :
    2 ^ 64 < ((refined v d).toNat + 3) * d.toNat := by
  have hcand : Candidate d (refined v d) := refine_seed_candidate hd v 5
  rcases Nat.lt_or_ge (2 ^ 64) (4 * d.toNat) with hbig | hsmall
  · exact hbig.trans_le (Nat.mul_le_mul_right _ (Nat.add_le_add_right hcand.one_le 3))
  · have hline : 2 ^ 64 * (2 ^ 64 - (refined v d).toNat * d.toNat) + 4 * d.toNat < 2 ^ 64 + 2 * 2 ^ 64 * d.toNat :=
      refine_seed_shortfallBelowLine hd hsmall v 5
    have hpos := toNat_pos hd
    rw [Nat.add_mul]
    omega

theorem div_le_refined_add_two {d : Word} (hd : d ≠ 0#64) (v : Variant) :
    2 ^ 64 / d.toNat ≤ (refined v d).toNat + 2 :=
  Nat.le_of_lt_succ ((Nat.div_lt_iff_lt_mul (toNat_pos hd)).2 (lt_refined_add_three_mul hd v))

/-- Settles O55: five rounds square the seed's quarter down to one part in 2^64. -/
theorem fiveRoundsEndAtMostTwoLow : Obligations.FiveRoundsEndAtMostTwoLow := by
  refine ⟨fun v d hd => ⟨rfl, fun i _ => ?_, fun i _ => ?_, div_le_refined_add_two hd v⟩, by decide⟩
  · have h := refine_seed_candidate hd v i
    exact ⟨h.one_le, h.mul_le⟩
  · rw [refine_succ_last]
    exact (refine_seed_candidate hd v i).le_round hd

/-! ### The fix-up (R78) -/

theorem eq_max64_iff (c : Word) : c = max64 ↔ c.toNat = 2 ^ 64 - 1 := by
  rw [← BitVec.toNat_inj, max64_toNat]

theorem add64_one_toNat {c : Word} (h : c ≠ max64) : (add64 c 1#64).1.toNat = c.toNat + 1 := by
  have hc := c.isLt
  rw [ne_eq, eq_max64_iff] at h
  rw [add64_sum_toNat, BitVec.toNat_ofNat]
  omega

theorem fixStep_toNat (d c : Word) : (fixStep d c).toNat
    = if d.toNat ≤ (residualOf d c).toNat ∧ c.toNat ≠ 2 ^ 64 - 1 then c.toNat + 1 else c.toNat := by
  simp only [fixStep, ne_eq, eq_max64_iff]
  split
  next h => exact add64_one_toNat (mt (eq_max64_iff c).1 h.2)
  next => rfl

/-- Adding the negated divisor carries exactly where subtracting the divisor does not borrow. -/
theorem add64_neg64_carry {d : Word} (hd : d ≠ 0#64) (a : Word) :
    (add64 a (neg64 d)).2 = true ↔ d.toNat ≤ a.toNat := by
  have hlt := d.isLt
  rw [add64_carry, neg64_toNat_of_ne hd]
  omega

theorem add64_one_carry (c : Word) : (add64 c 1#64).2 = true ↔ c = max64 := by
  have hc := c.isLt
  rw [add64_carry, eq_max64_iff, BitVec.toNat_ofNat]
  omega

theorem sub64_add64_one (c : Word) : (sub64 (add64 c 1#64).1 1#64).1 = c := by
  have hc := c.isLt
  apply BitVec.eq_of_toNat_eq
  rw [sub64_difference_toNat, add64_sum_toNat, BitVec.toNat_ofNat]
  omega

theorem sub64_bitWord_false (a : Word) : (sub64 a (bitWord false)).1 = a := by
  apply BitVec.eq_of_toNat_eq
  rw [sub64_difference_toNat, bitWord_toNat]
  simpa using a.isLt

theorem add64_bitWord_false (a : Word) : (add64 a (bitWord false)).1 = a := by
  apply BitVec.eq_of_toNat_eq
  rw [add64_sum_toNat, bitWord_toNat]
  simpa using a.isLt

/-- R78, the full variant: the 1 is taken back where the subtraction borrowed or the add wrapped. -/
theorem fixStepFull_eq (d c : Word) : fixStepFull d c = fixStep d c := by
  have htake : ((sub64 (residualOf d c) d).2 || (add64 c 1#64).2) = true
      ↔ ¬(d.toNat ≤ (residualOf d c).toNat ∧ c ≠ max64) := by
    rw [Bool.or_eq_true, sub64_borrow, add64_one_carry, not_and_or, Nat.not_le, not_ne_iff]
  rw [fixStepFull, fixStep]
  split
  next h => rw [Bool.eq_false_iff.2 (mt htake.1 (not_not_intro h)), sub64_bitWord_false]
  next h => rw [htake.2 h]; exact sub64_add64_one c

/-- R78, the lean variant: the carry is the comparison, and the saturated candidate is left alone. -/
theorem fixStepLean_eq {d : Word} (hd : d ≠ 0#64) (c : Word) : fixStepLean d c = fixStep d c := by
  have hcarry := add64_neg64_carry hd (residualOf d c)
  rw [fixStepLean, fixStep]
  by_cases hmax : c = max64
  · rw [if_pos hmax, if_neg (fun h => h.2 hmax)]
  · rw [if_neg hmax]
    split
    next h => rw [hcarry.2 h.1]; rfl
    next h =>
      rw [Bool.eq_false_iff.2 (mt hcarry.1 fun hle => h ⟨hle, hmax⟩), add64_bitWord_false]

theorem fixStepOf_eq {d : Word} (hd : d ≠ 0#64) (v : Variant) (c : Word) : fixStepOf v d c = fixStep d c := by
  cases v with
  | full => exact fixStepFull_eq d c
  | lean => exact fixStepLean_eq hd c

theorem fixUp_nfix {d : Word} (hd : d ≠ 0#64) (v : Variant) (c : Word) :
    fixUp v d Config.nfix c = fixStep d (fixStep d c) := by
  rw [Config.nfix, fixUp_succ, fixUp_succ, fixUp_zero, fixStepOf_eq hd, fixStepOf_eq hd]

/-- R78: the comparison asks whether the candidate can be raised by one without over-estimating. -/
theorem Candidate.le_residualOf_iff {d c : Word} (hd : d ≠ 0#64) (h : Candidate d c) :
    d.toNat ≤ (residualOf d c).toNat ↔ (c.toNat + 1) * d.toNat ≤ 2 ^ 64 := by
  have hsum := h.residualOf_add hd
  rw [Nat.add_mul]
  omega

/-- Settles O56: each realisation by the cases of its comparison and of the saturated candidate. -/
theorem fixUpRealisationsAreOneFunction : Obligations.FixUpRealisationsAreOneFunction := by
  refine ⟨fun d c hd => ⟨fixStepFull_eq d c, fixStepLean_eq hd c, fixStep_toNat d c, sub64_borrow _ _,
    add64_neg64_carry hd _, fun v => fixUp_nfix hd v c, fun hone hle => ?_⟩, by decide⟩
  exact Candidate.le_residualOf_iff hd ⟨hone, hle⟩

/-! ### The datapath computes the closed form (R79) -/

theorem Candidate.le_magic {d c : Word} (hd : d ≠ 0#64) (h : Candidate d c) : c.toNat ≤ (magic d).toNat :=
  (le_magic_iff hd).2 ⟨h.mul_le, c.isLt⟩

/-- A fix-up step raises a candidate by one, but never past the magic constant. -/
theorem Candidate.fixStep_toNat {d c : Word} (hd : d ≠ 0#64) (h : Candidate d c) :
    (fixStep d c).toNat = min (c.toNat + 1) (magic d).toNat := by
  have hle := h.le_magic hd
  have hc := c.isLt
  have hsucc := le_magic_iff hd (c := c.toNat + 1)
  have hraise := h.le_residualOf_iff hd
  rw [Machine.fixStep_toNat]
  split <;> omega

theorem Candidate.fixStep {d c : Word} (hd : d ≠ 0#64) (h : Candidate d c) : Candidate d (fixStep d c) := by
  have hle : (Machine.fixStep d c).toNat ≤ (magic d).toNat := (h.fixStep_toNat hd).trans_le (min_le_right _ _)
  refine ⟨?_, ((le_magic_iff hd).1 hle).1⟩
  rw [h.fixStep_toNat hd]
  exact le_min (Nat.le_add_left _ _) (one_le_magic hd)

/-- Two fix-up steps take a candidate that is at most two low to the magic constant. -/
theorem Candidate.fixStep_fixStep {d c : Word} (hd : d ≠ 0#64) (h : Candidate d c)
    (hlow : 2 ^ 64 / d.toNat ≤ c.toNat + 2) : Machine.fixStep d (Machine.fixStep d c) = magic d := by
  have hmagic : (magic d).toNat ≤ c.toNat + 2 := by
    rw [magic_toNat]
    exact (min_le_left _ _).trans hlow
  apply BitVec.eq_of_toNat_eq
  rw [(h.fixStep hd).fixStep_toNat hd, h.fixStep_toNat hd]
  omega

theorem solveDatapath_eq_magic (v : Variant) {d : Word} (hd : d ≠ 0#64) : solveDatapath v d = magic d :=
  (fixUp_nfix hd v _).trans
    ((refine_seed_candidate hd v Config.rounds).fixStep_fixStep hd (div_le_refined_add_two hd v))

/-- Settles O57: c5 is at most two low, and two fix-up steps make that up. -/
theorem solverDatapathComputesTheClosedForm : Obligations.SolverDatapathComputesTheClosedForm := by
  intro v d hd
  have h := solveDatapath_eq_magic v hd
  exact ⟨h, h.symm⟩

end Sys2Proof.Machine

/-! PROOFS. The statements of 41_applicator.md: the quotient estimate and the remainder candidate (R91), and that
the full-variant sequence is exact (R92, R94). -/

namespace Sys2Proof.Machine

/-! ### The quotient estimate (R91) -/

/-- What the applicators ask of a magic constant `m` for the divisor `d`: R80 (b) and (c). -/
structure MeetsDemands (d m : Word) : Prop where
  mul_le : m.toNat * d.toNat ≤ 2 ^ 64
  shortfall_le : 2 ^ 64 - m.toNat * d.toNat ≤ d.toNat

theorem magic_meetsDemands {d : Word} (hd : d ≠ 0#64) : MeetsDemands d (magic d) :=
  have ⟨hmul, hshort⟩ := magicMeetsTheApplicatorsDemands d hd
  ⟨hmul, hshort⟩

theorem estimate_mul_le_product (n m : Word) : (estimate n m).toNat * 2 ^ 64 ≤ n.toNat * m.toNat := by
  rw [estimate_toNat]
  exact Nat.div_mul_le_self _ _

theorem product_lt_estimate_succ_mul (n m : Word) :
    n.toNat * m.toNat < ((estimate n m).toNat + 1) * 2 ^ 64 := by
  rw [estimate_toNat]
  exact (Nat.div_lt_iff_lt_mul (by decide)).1 (Nat.lt_succ_self _)

section Estimate
variable {d m : Word} (n : Word)

/-- `M·D ≤ 2^64` bounds the estimate from above. -/
theorem MeetsDemands.estimate_mul_le (h : MeetsDemands d m) :
    (estimate n m).toNat * d.toNat ≤ n.toNat := by
  refine Nat.le_of_mul_le_mul_right ?_ (by decide : 0 < 2 ^ 64)
  calc (estimate n m).toNat * d.toNat * 2 ^ 64
      = (estimate n m).toNat * 2 ^ 64 * d.toNat := Nat.mul_right_comm _ _ _
    _ ≤ n.toNat * m.toNat * d.toNat := Nat.mul_le_mul_right _ (estimate_mul_le_product n m)
    _ = n.toNat * (m.toNat * d.toNat) := Nat.mul_assoc _ _ _
    _ ≤ n.toNat * 2 ^ 64 := Nat.mul_le_mul_left _ h.mul_le

/-- `2^64 ≤ M·D + D` bounds it from below: the floor loses less than one `D`, the shortfall at most another. -/
theorem MeetsDemands.lt_estimate_add_two_mul (hd : d ≠ 0#64) (h : MeetsDemands d m) :
    n.toNat < ((estimate n m).toNat + 2) * d.toNat := by
  refine Nat.lt_of_mul_lt_mul_right (a := 2 ^ 64) ?_
  calc n.toNat * 2 ^ 64
      ≤ n.toNat * (m.toNat * d.toNat + d.toNat) :=
        Nat.mul_le_mul_left _ (Nat.sub_le_iff_le_add'.1 h.shortfall_le)
    _ = n.toNat * m.toNat * d.toNat + n.toNat * d.toNat := by ring
    _ < ((estimate n m).toNat + 1) * 2 ^ 64 * d.toNat + 2 ^ 64 * d.toNat :=
        Nat.add_lt_add (Nat.mul_lt_mul_of_pos_right (product_lt_estimate_succ_mul n m) (toNat_pos hd))
          (Nat.mul_lt_mul_of_pos_right n.isLt (toNat_pos hd))
    _ = ((estimate n m).toNat + 2) * d.toNat * 2 ^ 64 := by ring

theorem MeetsDemands.estimate_le_div (hd : d ≠ 0#64) (h : MeetsDemands d m) :
    (estimate n m).toNat ≤ n.toNat / d.toNat :=
  (Nat.le_div_iff_mul_le (toNat_pos hd)).2 (h.estimate_mul_le n)

theorem MeetsDemands.div_le_estimate_succ (hd : d ≠ 0#64) (h : MeetsDemands d m) :
    n.toNat / d.toNat ≤ (estimate n m).toNat + 1 :=
  Nat.lt_succ_iff.1 ((Nat.div_lt_iff_lt_mul (toNat_pos hd)).2 (h.lt_estimate_add_two_mul n hd))

/-- The two cases of R91. -/
theorem MeetsDemands.estimate_cases (hd : d ≠ 0#64) (h : MeetsDemands d m) :
    (estimate n m).toNat = n.toNat / d.toNat ∨ (estimate n m).toNat + 1 = n.toNat / d.toNat := by
  have hle := h.estimate_le_div n hd
  have hge := h.div_le_estimate_succ n hd
  omega

/-! ### The remainder candidate (R91, R92) -/

/-- Neither the product nor the subtraction of R92 wraps. -/
theorem MeetsDemands.candidateFull_toNat (h : MeetsDemands d m) :
    (candidateFull n d m).toNat = n.toNat - (estimate n m).toNat * d.toNat := by
  have hle := h.estimate_mul_le n
  rw [candidateFull, sub64_difference_toNat, mullo_toNat, Nat.mod_eq_of_lt (hle.trans_lt n.isLt),
    Nat.add_sub_assoc hle, Nat.add_mod_left, Nat.mod_eq_of_lt ((Nat.sub_le _ _).trans_lt n.isLt)]

theorem MeetsDemands.candidateFull_lt (hd : d ≠ 0#64) (h : MeetsDemands d m) :
    (candidateFull n d m).toNat < 2 * d.toNat := by
  rw [h.candidateFull_toNat, Nat.sub_lt_iff_lt_add' (h.estimate_mul_le n), ← Nat.add_mul]
  exact h.lt_estimate_add_two_mul n hd

theorem MeetsDemands.candidateFull_of_exact (h : MeetsDemands d m)
    (hq : (estimate n m).toNat = n.toNat / d.toNat) : (candidateFull n d m).toNat = n.toNat % d.toNat := by
  rw [h.candidateFull_toNat, hq, Nat.mod_eq_sub_div_mul]

theorem MeetsDemands.candidateFull_of_low (h : MeetsDemands d m)
    (hq : (estimate n m).toNat + 1 = n.toNat / d.toNat) :
    (candidateFull n d m).toNat = n.toNat % d.toNat + d.toNat := by
  have hdiv := Nat.div_add_mod' n.toNat d.toNat
  rw [← hq, Nat.succ_mul] at hdiv
  rw [h.candidateFull_toNat]
  omega

/-- R94: the trial subtraction borrows exactly when the estimate was exact. -/
theorem MeetsDemands.trial_borrow_iff (hd : d ≠ 0#64) (h : MeetsDemands d m) :
    (sub64 (candidateFull n d m) d).2 = true ↔ (estimate n m).toNat = n.toNat / d.toNat := by
  rw [sub64_borrow]
  rcases h.estimate_cases n hd with hq | hq
  · rw [h.candidateFull_of_exact n hq]
    exact iff_of_true (Nat.mod_lt _ (toNat_pos hd)) hq
  · rw [h.candidateFull_of_low n hq]
    omega

end Estimate

/-- Settles O50: the two bounds on the estimate, and the candidate as a remainder in each case. -/
theorem estimateIsLowByAtMostOne : Obligations.EstimateIsLowByAtMostOne := by
  refine ⟨fun n d m hd hb hc => ?_, fun n d hd => ?_, by decide⟩
  · have h : MeetsDemands d m := ⟨hb, hc⟩
    exact ⟨h.estimate_le_div n hd, h.div_le_estimate_succ n hd, h.estimate_mul_le n,
      h.candidateFull_toNat n ▸ h.candidateFull_lt n hd, h.candidateFull_toNat n,
      h.candidateFull_of_exact n, h.candidateFull_of_low n⟩
  · have h := magic_meetsDemands hd
    exact ⟨h.estimate_le_div n hd, h.div_le_estimate_succ n hd⟩

/-! ### The correction (R92, R94) -/

theorem sub64_toNat_of_le {a b : Word} (h : b.toNat ≤ a.toNat) :
    (sub64 a b).1.toNat = a.toNat - b.toNat := by
  have ha := a.isLt
  rw [sub64_difference_toNat]
  omega

/-- Adding back what was subtracted gives the word back, borrowed or not. -/
theorem add64_sub64_cancel (a b : Word) : (add64 (sub64 a b).1 b).1 = a := by
  have ha := a.isLt
  have hb := b.isLt
  apply BitVec.eq_of_toNat_eq
  rw [add64_sum_toNat, sub64_difference_toNat]
  omega

theorem quotientOf_toNat (n d : Word) : (quotientOf n d).toNat = n.toNat / d.toNat := by
  rw [quotientOf, BitVec.toNat_ofNat, Nat.mod_eq_of_lt ((Nat.div_le_self _ _).trans_lt n.isLt)]

theorem remainderOf_toNat (n d : Word) : (remainderOf n d).toNat = n.toNat % d.toNat := by
  rw [remainderOf, BitVec.toNat_ofNat, Nat.mod_eq_of_lt ((Nat.mod_le _ _).trans_lt n.isLt)]

section Correction
variable {n d m : Word}

/-- With a borrow the 1 is taken back from the quotient, and the divisor given back to the remainder. -/
theorem applyFull_of_borrow (hb : (sub64 (candidateFull n d m) d).2 = true) :
    applyFull n d m = (estimate n m, candidateFull n d m) := by
  rw [applyFull, hb]
  exact Prod.ext (sub64_add64_one _) (add64_sub64_cancel _ _)

theorem applyFull_of_no_borrow (hb : (sub64 (candidateFull n d m) d).2 = false) :
    applyFull n d m = ((add64 (estimate n m) 1#64).1, (sub64 (candidateFull n d m) d).1) := by
  rw [applyFull, hb]
  exact Prod.ext (sub64_bitWord_false _) (add64_bitWord_false _)

theorem MeetsDemands.applyFull_eq (hd : d ≠ 0#64) (h : MeetsDemands d m) :
    applyFull n d m = (quotientOf n d, remainderOf n d) := by
  have hborrow := h.trial_borrow_iff n hd
  rcases h.estimate_cases n hd with hq | hq
  · rw [applyFull_of_borrow (hborrow.2 hq)]
    refine Prod.ext (BitVec.eq_of_toNat_eq ?_) (BitVec.eq_of_toNat_eq ?_)
    · rw [hq, quotientOf_toNat]
    · rw [h.candidateFull_of_exact n hq, remainderOf_toNat]
  · have hr := h.candidateFull_of_low n hq
    rw [applyFull_of_no_borrow (Bool.eq_false_iff.2 (mt hborrow.1 (by omega)))]
    refine Prod.ext (BitVec.eq_of_toNat_eq ?_) (BitVec.eq_of_toNat_eq ?_)
    · rw [← quotientOf_toNat] at hq
      rw [add64_sum_toNat, BitVec.toNat_ofNat, Nat.one_mod, hq, Nat.mod_eq_of_lt (quotientOf n d).isLt]
    · rw [sub64_toNat_of_le (hr ▸ Nat.le_add_left _ _), hr, Nat.add_sub_cancel, remainderOf_toNat]

end Correction

/-- Settles O51: the borrow tells the two cases of the estimate apart, and the correction is right in both. -/
theorem fullApplicatorIsExact : Obligations.FullApplicatorIsExact := by
  refine ⟨fun n d m hd hb hc => ?_, fun n d hd => (magic_meetsDemands hd).applyFull_eq hd⟩
  have h : MeetsDemands d m := ⟨hb, hc⟩
  exact ⟨h.applyFull_eq hd, h.trial_borrow_iff n hd⟩

end Sys2Proof.Machine

/-! PROOFS. The statements of 42_divider_commands.md: the common preamble (R100), each command on a slot (R101 to
R106), and that the slot commands and the one-shot commands agree (R107). -/

namespace Sys2Proof.Machine

open Laws (IsSlotCommand)

/-! ### The lean applicator (R132, R135) -/

theorem mullo_eq_mul (a b : Word) : mullo a b = a * b := by
  apply BitVec.eq_of_toNat_eq
  rw [mullo_toNat, BitVec.toNat_mul]

theorem neg64_eq_neg (a : Word) : neg64 a = -a := by
  apply BitVec.eq_of_toNat_eq
  rw [neg64_toNat, BitVec.toNat_neg]

theorem add64_eq_add (a b : Word) : (add64 a b).1 = a + b := by
  apply BitVec.eq_of_toNat_eq
  rw [add64_sum_toNat, BitVec.toNat_add]

theorem sub64_eq_sub (a b : Word) : (sub64 a b).1 = a - b := by
  have hb := b.isLt
  apply BitVec.eq_of_toNat_eq
  rw [sub64_difference_toNat, BitVec.toNat_sub, Nat.sub_add_comm hb.le]

/-- Adding the product with the negated divisor is subtracting the product with the divisor. -/
theorem candidateLean_neg64 (n d m : Word) : candidateLean n (neg64 d) m = candidateFull n d m := by
  rw [candidateLean, candidateFull, add64_eq_add, sub64_eq_sub, mullo_eq_mul, mullo_eq_mul, neg64_eq_neg,
    BitVec.mul_neg, BitVec.sub_eq_add_neg]

/-- The carry of adding the negated divisor is the inverted borrow of subtracting the divisor. -/
theorem add64_neg64_carry_eq_not_borrow {d : Word} (hd : d ≠ 0#64) (a : Word) :
    (add64 a (neg64 d)).2 = !(sub64 a d).2 := by
  rw [Bool.eq_iff_iff, Bool.not_eq_true', ← Bool.not_eq_true, add64_neg64_carry hd, sub64_borrow, Nat.not_lt]

/-- R132: the lean sequence gives the quotient of the full one, whatever the magic constant. -/
theorem applyLean_neg64 {d : Word} (hd : d ≠ 0#64) (n m : Word) :
    applyLean n (neg64 d) m = (applyFull n d m).1 := by
  rw [applyLean, candidateLean_neg64, add64_neg64_carry_eq_not_borrow hd]
  cases hb : (sub64 (candidateFull n d m) d).2 with
  | true =>
    rw [applyFull_of_borrow hb]
    exact add64_bitWord_false _
  | false =>
    rw [applyFull_of_no_borrow hb]
    rfl

/-! ### The results of a divider (R26, R104 to R106) -/

theorem applyFull_magic {d : Word} (hd : d ≠ 0#64) (n : Word) :
    applyFull n d (magic d) = (quotientOf n d, remainderOf n d) :=
  (magic_meetsDemands hd).applyFull_eq hd

theorem applyLean_magic {d : Word} (hd : d ≠ 0#64) (n : Word) : applyLean n (neg64 d) (magic d) = quotientOf n d := by
  rw [applyLean_neg64 hd, applyFull_magic hd]

theorem quotientOf_mul_add_remainderOf (n d : Word) :
    (quotientOf n d).toNat * d.toNat + (remainderOf n d).toNat = n.toNat := by
  rw [quotientOf_toNat, remainderOf_toNat, Nat.div_add_mod']

theorem remainderOf_lt {d : Word} (hd : d ≠ 0#64) (n : Word) : (remainderOf n d).toNat < d.toNat := by
  rw [remainderOf_toNat]
  exact Nat.mod_lt _ (toNat_pos hd)

theorem Divider.ddf_of_lean {d : Divider} (h : d.var = .lean) : d.ddf = neg64 d.divisor := by
  rw [Divider.divisor_lean h, neg64_neg64]

theorem Divider.Consistent.applyFull_eq {d : Divider} (h : d.Consistent) (hv : d.var = .full) (n : Word) :
    applyFull n d.ddf d.magic = (quotientOf n d.divisor, remainderOf n d.divisor) := by
  obtain ⟨hd, hm⟩ := h
  rw [hm, ← Divider.divisor_full hv, applyFull_magic hd]

/-- R104: the quotient is exact under either variant. -/
theorem Divider.Consistent.quotient_eq {d : Divider} (h : d.Consistent) (n : Word) :
    d.quotient n = quotientOf n d.divisor := by
  cases hv : d.var with
  | full => rw [Divider.quotient_full hv, divideF, h.applyFull_eq hv]
  | lean =>
    obtain ⟨hd, hm⟩ := h
    rw [Divider.quotient_lean hv, Divider.ddf_of_lean hv, hm, applyLean_magic hd]

/-! ### The common preamble (R100) -/

section Preamble
variable {i : Instr} {s : State} {k : Nat} {e : Status} (hpre : preambleStatus i k s = some e) (he : e ≠ .ok)
include hpre he

/-- CONSTRUCT ends as R100 says: out of range, or busy. -/
theorem construct_of_preambleStatus (hi : isConstruct i = true) (v : Variant) : construct v k s = raise e s := by
  rw [construct]
  rcases checkFree_cases k s with ⟨hs, hc⟩ | ⟨d, hs, hc⟩ | ⟨hs, hc⟩ | ⟨hs, hc⟩ <;>
    simp only [preambleStatus, hs, hi, if_true, Option.some.injEq, reduceCtorEq] at hpre
  · rw [hc, afterChecks_error, ← hpre, raise_eq]
  · rw [hc, afterChecks_error, ← hpre, raise_eq]
  · exact absurd hpre.symm he

/-- The other slot commands end as R100 says, given that the body of MOD and DIVMOD refuses a lean divider. -/
theorem afterChecks_checkDivider_of_preambleStatus (hi : isConstruct i = false) {body : Divider → Result}
    (hbody : ∀ d, needsFullSlot i = true → d.var = .lean → body d = raise .eNomod s) :
    afterChecks (checkDivider k s) body = raise e s := by
  rcases checkDivider_cases k s with ⟨hs, hc⟩ | ⟨hs, hc⟩ | ⟨d, hs, hc⟩ | ⟨hs, hc⟩ <;>
    simp only [preambleStatus, hs, hi, Option.some.injEq, reduceCtorEq, if_false, Bool.false_eq_true] at hpre
  · rw [hc, afterChecks_error, ← hpre, raise_eq]
  · rw [hc, afterChecks_error, ← hpre, raise_eq]
  · split at hpre
    next hlean =>
      obtain ⟨hn, hv⟩ := Bool.and_eq_true_iff.1 hlean
      rw [hc, afterChecks_ok, ← hpre, hbody d hn (eq_of_beq hv)]
    next => exact absurd hpre.symm he

/-- A slot command that does not reach its body raises the status of R100 and changes nothing else. -/
theorem exec_of_preambleStatus (hk : i.slot? = some k) : exec i s = raise e s := by
  cases i <;> cases hk
  case constructF => exact construct_of_preambleStatus hpre he rfl .full
  case constructL => exact construct_of_preambleStatus hpre he rfl .lean
  case mod | divmod =>
    exact (afterChecks_checkFullDivider k s _).trans
      (afterChecks_checkDivider_of_preambleStatus hpre he rfl fun _ _ hv => if_pos hv)
  case release | getdiv | div => exact afterChecks_checkDivider_of_preambleStatus hpre he rfl nofun

end Preamble

theorem isConstruct_of_needsFullSlot {i : Instr} (h : needsFullSlot i = true) : isConstruct i = false := by
  cases i with
  | mod | divmod => rfl
  | _ => nomatch h

section Statuses
variable {i : Instr} {s : State} {k : Nat} (hk : i.slot? = some k)
include hk

theorem exec_of_nslots_le (h : s.nslots ≤ k) : exec i s = .next (s.offer ⟨.eRange, none, none⟩) :=
  exec_of_preambleStatus (by rw [preambleStatus, (s.slotAt_eq_none k).2 h]) (by decide) hk

theorem exec_of_uninitialized (hi : isConstruct i = false) (hs : s.slotAt k = some .uninitialized) :
    exec i s = .next (s.offer ⟨.eUninit, none, none⟩) :=
  exec_of_preambleStatus (by simp [preambleStatus, hs, hi]) (by decide) hk

theorem exec_of_busy {d : Divider} (hi : isConstruct i = true) (hs : s.slotAt k = some (.constructed d)) :
    exec i s = .next (s.offer ⟨.eBusy, none, none⟩) :=
  exec_of_preambleStatus (by simp [preambleStatus, hs, hi]) (by decide) hk

theorem exec_of_lean {d : Divider} (hi : needsFullSlot i = true) (hs : s.slotAt k = some (.constructed d))
    (hv : d.var = .lean) : exec i s = .next (s.offer ⟨.eNomod, none, none⟩) :=
  exec_of_preambleStatus (by simp [preambleStatus, hs, hi, hv, isConstruct_of_needsFullSlot hi]) (by decide) hk

end Statuses

/-! ### Each command past its preamble (R101 to R106, R133) -/

section Bodies
variable {s : State} {k : Nat}

theorem construct_of_zero (v : Variant) (hs : s.slotAt k = some .uninitialized) (h0 : s.operand .opa = 0#64) :
    construct v k s = .fault .divisorZero := by
  rw [construct, checkFree_ok hs, afterChecks_ok, h0, unlessDivisorZero_zero]

theorem construct_of_free (v : Variant) (hs : s.slotAt k = some .uninitialized) (h0 : s.operand .opa ≠ 0#64) :
    construct v k s =
      .next ((s.setSlot k (.constructed (newDivider v (s.operand .opa)))).offer ⟨.ok, none, none⟩) := by
  rw [construct, checkFree_ok hs, afterChecks_ok, unlessDivisorZero_of_ne h0, respond_eq]

variable {d : Divider} (hs : s.slotAt k = some (.constructed d))
include hs

theorem exec_release_ok : exec (.release k) s = .next ((s.setSlot k .uninitialized).offer ⟨.ok, none, none⟩) := by
  rw [exec, execRelease, checkDivider_ok hs, afterChecks_ok, respond_eq]

theorem exec_getdiv_ok : exec (.getdiv k) s = .next (s.offer ⟨.ok, some d.divisor, none⟩) := by
  rw [exec, execGetdiv, checkDivider_ok hs, afterChecks_ok, respond_eq]

theorem exec_div_ok : exec (.div k) s = .next (s.offer ⟨.ok, some (d.quotient (s.operand .opa)), none⟩) := by
  rw [exec, execDiv, checkDivider_ok hs, afterChecks_ok, respond_eq]

theorem exec_mod_ok (hv : d.var = .full) :
    exec (.mod k) s = .next (s.offer ⟨.ok, some (applyFull (s.operand .opa) d.ddf d.magic).2, none⟩) := by
  rw [exec, execMod, checkFullDivider_ok hs hv, afterChecks_ok, respond_eq, moduloF]

theorem exec_divmod_ok (hv : d.var = .full) :
    exec (.divmod k) s = .next (s.offer
      ⟨.ok, some (applyFull (s.operand .opa) d.ddf d.magic).1,
        some (applyFull (s.operand .opa) d.ddf d.magic).2⟩) := by
  rw [exec, execDivmod, checkFullDivider_ok hs hv, afterChecks_ok, respond_eq, divModF]

/-! With the invariant of R26 the results are exact. -/

variable (hd : d.Consistent)
include hd

theorem exec_div_exact :
    exec (.div k) s = .next (s.offer ⟨.ok, some (quotientOf (s.operand .opa) d.divisor), none⟩) := by
  rw [exec_div_ok hs, hd.quotient_eq]

theorem exec_mod_exact (hv : d.var = .full) :
    exec (.mod k) s = .next (s.offer ⟨.ok, some (remainderOf (s.operand .opa) d.divisor), none⟩) := by
  rw [exec_mod_ok hs hv, hd.applyFull_eq hv]

theorem exec_divmod_exact (hv : d.var = .full) :
    exec (.divmod k) s = .next (s.offer
      ⟨.ok, some (quotientOf (s.operand .opa) d.divisor), some (remainderOf (s.operand .opa) d.divisor)⟩) := by
  rw [exec_divmod_ok hs hv, hd.applyFull_eq hv]

end Bodies

/-! ### The one-shot commands of the full variant (R120 to R123) -/

section OneShot
variable {s : State} (h0 : s.operand .opb ≠ 0#64)
include h0

theorem oneShot_of_ne (body : Word → Word → Result) : oneShot s body = body (s.operand .opa) (s.operand .opb) := by
  rw [oneShot, unlessDivisorZero_of_ne h0]

theorem exec_div1F_exact :
    exec .div1F s = .next (s.offer ⟨.ok, some (quotientOf (s.operand .opa) (s.operand .opb)), none⟩) := by
  rw [exec, execDiv1F, oneShot_of_ne h0, respond_eq, solve_eq_magic, divideF, applyFull_magic h0]

theorem exec_mod1_exact :
    exec .mod1 s = .next (s.offer ⟨.ok, some (remainderOf (s.operand .opa) (s.operand .opb)), none⟩) := by
  rw [exec, execMod1, oneShot_of_ne h0, respond_eq, solve_eq_magic, moduloF, applyFull_magic h0]

theorem exec_divmod1_exact :
    exec .divmod1 s = .next (s.offer
      ⟨.ok, some (quotientOf (s.operand .opa) (s.operand .opb)),
        some (remainderOf (s.operand .opa) (s.operand .opb))⟩) := by
  rw [exec, execDivmod1, oneShot_of_ne h0, respond_eq, solve_eq_magic, divModF, applyFull_magic h0]

end OneShot

/-! ### The statements (R101 to R107) -/

/-- Settles O34: the preamble's statuses, and the two ways CONSTRUCT takes a free slot. -/
theorem constructFullStoresTheDivider : Obligations.ConstructFullStoresTheDivider :=
  ⟨fun _ hk => (IsSlotCommand.constructF.slotWord hk).symm, fun _ _ =>
    ⟨exec_of_nslots_le rfl, fun _ => exec_of_busy rfl rfl, construct_of_zero .full, construct_of_free .full⟩⟩

/-- Settles O36: the slot just emptied reads back Uninitialized, which the later commands turn on. -/
theorem releaseEndsTheDivider : Obligations.ReleaseEndsTheDivider := by
  refine ⟨fun k hk => (IsSlotCommand.release.slotWord hk).symm, fun s k =>
    ⟨exec_of_nslots_le rfl, exec_of_uninitialized rfl rfl, fun d hs => ⟨_, exec_release_ok hs, rfl, ?_⟩⟩⟩
  have hfree := s.setSlot_slotAt_self k .uninitialized (s.slotAt_lt k _ hs)
  refine ⟨hfree, exec_of_uninitialized rfl rfl hfree, exec_of_uninitialized rfl rfl hfree, fun a b ha i hi => ?_⟩
  rcases List.mem_pair.1 hi with rfl | rfl
  · exact ⟨_, construct_of_free .full hfree ha, rfl⟩
  · exact ⟨_, construct_of_free .lean hfree ha, rfl⟩

/-- Settles O37: the divisor under each variant, and of a divider just made the operand it was made from. -/
theorem getdivReturnsTheDivisor : Obligations.GetdivReturnsTheDivisor := by
  refine ⟨fun k hk => (IsSlotCommand.getdiv.slotWord hk).symm, fun s k =>
    ⟨exec_of_nslots_le rfl, exec_of_uninitialized rfl rfl, fun d hs hv => ?_, fun d hs hv => ?_⟩,
    fun s t k i hi h hok a b => ?_⟩
  · rw [exec_getdiv_ok hs, Divider.divisor_full hv]
  · rw [exec_getdiv_ok hs, Divider.divisor_lean hv, neg64]
  · obtain ⟨v, hc⟩ : ∃ v, construct v k s = .next t := by
      rcases hi with rfl | rfl
      · exact ⟨.full, h⟩
      · exact ⟨.lean, h⟩
    obtain ⟨-, hs⟩ := construct_ok hc hok
    rw [exec_getdiv_ok ((t.withOperands_slotAt k a b).trans hs), newDivider_divisor]

/-- Settles O38: the applicator of each variant, and its exactness for a consistent divider. -/
theorem divIsTheFloorQuotient : Obligations.DivIsTheFloorQuotient := by
  refine ⟨fun k hk => (IsSlotCommand.div.slotWord hk).symm, fun s k =>
    ⟨exec_of_nslots_le rfl, exec_of_uninitialized rfl rfl, fun d hs hv => ?_, fun d hs hv => ?_,
      fun d hs hd => exec_div_exact hs hd⟩⟩
  · rw [exec_div_ok hs, Divider.quotient_full hv, divideF]
  · rw [exec_div_ok hs, Divider.quotient_lean hv]

/-- Settles O39: E_NOMOD on a lean slot, and on a full one the exact remainder of a consistent divider. -/
theorem modIsTheRemainder : Obligations.ModIsTheRemainder :=
  ⟨fun _ hk => (IsSlotCommand.mod.slotWord hk).symm, fun s _ =>
    ⟨exec_of_nslots_le rfl, exec_of_uninitialized rfl rfl, fun _ => exec_of_lean rfl rfl, fun _ => exec_mod_ok,
      fun _ hs hv ⟨hd, hm⟩ => ⟨exec_mod_exact hs ⟨hd, hm⟩ hv, remainderOf_lt hd (s.operand .opa)⟩⟩⟩

/-- Settles O40: E_NOMOD on a lean slot, and on a full one both exact results of a consistent divider. -/
theorem divmodIsQuotientAndRemainder : Obligations.DivmodIsQuotientAndRemainder :=
  ⟨fun _ hk => (IsSlotCommand.divmod.slotWord hk).symm, fun _ _ =>
    ⟨exec_of_nslots_le rfl, exec_of_uninitialized rfl rfl, fun _ => exec_of_lean rfl rfl, fun _ => exec_divmod_ok,
      fun _ hs hv hd => exec_divmod_exact hs hd hv⟩⟩

/-- Settles O46: slot and one-shot commands all answer with the floor quotient and its remainder. -/
theorem slotAndOneShotResultsAgree : Obligations.SlotAndOneShotResultsAgree := by
  intro n d hd
  refine ⟨quotientOf n d, remainderOf n d, (quotientOf_mul_add_remainderOf n d).symm, remainderOf_lt hd n, ?_, ?_⟩
  · rintro s k dv rfl hs hv hdv rfl
    exact ⟨exec_div_exact hs hdv, exec_mod_exact hs hdv hv, exec_divmod_exact hs hdv hv⟩
  · rintro s rfl rfl
    exact ⟨exec_div1F_exact hd, exec_mod1_exact hd, exec_divmod1_exact hd⟩

end Sys2Proof.Machine

/-! PROOFS. The statements of 43_oneshot_commands.md: DIV1.F (R121), MOD1 (R122), DIVMOD1 (R123), and that each
one-shot command answers as CONSTRUCT and its slot counterpart do (R124). -/

namespace Sys2Proof.Machine

/-! ### One-shot commands (R120, R134) -/

theorem oneShot_of_zero {s : State} (h0 : s.operand .opb = 0#64) (body : Word → Word → Result) :
    oneShot s body = .fault .divisorZero := by
  rw [oneShot, h0, unlessDivisorZero_zero]

theorem exec_oneShot_of_zero {i : Instr} {s : State} (hi : divisorPort i = some .opb) (h0 : s.operand .opb = 0#64) :
    exec i s = .fault .divisorZero := by
  cases i with
  | div1F => rw [exec, execDiv1F, oneShot_of_zero h0]
  | div1L => rw [exec, execDiv1L, oneShot_of_zero h0]
  | mod1 => rw [exec, execMod1, oneShot_of_zero h0]
  | divmod1 => rw [exec, execDivmod1, oneShot_of_zero h0]
  | _ => nomatch hi

theorem exec_div1L_exact {s : State} (h0 : s.operand .opb ≠ 0#64) :
    exec .div1L s = .next (s.offer ⟨.ok, some (quotientOf (s.operand .opa) (s.operand .opb)), none⟩) := by
  rw [exec, execDiv1L, oneShot_of_ne h0, respond_eq, solve_eq_magic, applyLean_magic h0]

/-- What the solver and the full applicator give together. -/
theorem applyFull_solve {d : Word} (hd : d ≠ 0#64) (n : Word) (v : Variant) :
    applyFull n d (solve v d) = (quotientOf n d, remainderOf n d) := by
  rw [solve_eq_magic, applyFull_magic hd]

/-! ### CONSTRUCT, a slot command, RELEASE (R124) -/

/-- Writing a slot and then its old contents restores every slot. -/
theorem State.setSlot_setSlot_slots {s : State} {k : Nat} {y : Slot} (hs : s.slotAt k = some y) (x : Slot) :
    ((s.setSlot k x).setSlot k y).slots = s.slots := by
  obtain ⟨hk, rfl⟩ := List.getElem?_eq_some_iff.1 hs
  rw [State.setSlot_slots, State.setSlot_slots, List.set_set, List.set_getElem_self]

section AfterConstruct
variable {s : State} {k : Nat} {n d : Word}

/-- R124 for any command `i` without a slot and any slot command `j` that answer alike: `i` from the operands, `j`
from the divider that CONSTRUCT stores. -/
theorem rsp_eq_after_construct {v : Variant} {i j : Instr} {r : Response} (hs : s.slotAt k = some .uninitialized)
    (hd : d ≠ 0#64) (x y : Word)
    (hi : exec i (s.withOperands n d) = .next ((s.withOperands n d).offer r))
    (hj : ∀ u : State, u.operand .opa = n → u.slotAt k = some (.constructed (newDivider v d)) →
      exec j u = .next (u.offer r)) :
    ∃ one built last freed,
      exec i (s.withOperands n d) = .next one ∧
      construct v k (s.withOperands d x) = .next built ∧
      exec j (built.withOperands n y) = .next last ∧
      exec (.release k) last = .next freed ∧
      one.rsp = last.rsp ∧ one.slots = s.slots ∧
      (∃ dv, last.slotAt k = some (.constructed dv)) ∧ freed.slots = s.slots := by
  have hstored : (s.setSlot k (.constructed (newDivider v d))).slotAt k = some (.constructed (newDivider v d)) :=
    s.setSlot_slotAt_self k _ (s.slotAt_lt k _ hs)
  exact ⟨_, _, _, _, hi, construct_of_free v hs hd, hj _ rfl hstored, exec_release_ok hstored, rfl, rfl,
    ⟨_, hstored⟩, State.setSlot_setSlot_slots hs _⟩

/-! The slot commands on the divider that CONSTRUCT stores. -/

variable (hd : d ≠ 0#64) (hn : s.operand .opa = n)
include hd hn

theorem exec_div_newDivider (v : Variant) (hs : s.slotAt k = some (.constructed (newDivider v d))) :
    exec (.div k) s = .next (s.offer ⟨.ok, some (quotientOf n d), none⟩) := by
  rw [exec_div_exact hs (newDivider_consistent v hd), newDivider_divisor, hn]

variable (hs : s.slotAt k = some (.constructed (newDivider .full d)))
include hs

theorem exec_mod_newDivider : exec (.mod k) s = .next (s.offer ⟨.ok, some (remainderOf n d), none⟩) := by
  rw [exec_mod_exact hs (newDivider_consistent .full hd) rfl, newDivider_divisor, hn]

theorem exec_divmod_newDivider :
    exec (.divmod k) s = .next (s.offer ⟨.ok, some (quotientOf n d), some (remainderOf n d)⟩) := by
  rw [exec_divmod_exact hs (newDivider_consistent .full hd) rfl, newDivider_divisor, hn]

end AfterConstruct

/-! ### The statements (R121 to R124) -/

/-- Settles O41: the exact quotient, which is what the solver and the full applicator give. -/
theorem oneShotFullDivideIsTheFloorQuotient : Obligations.OneShotFullDivideIsTheFloorQuotient :=
  ⟨by decide, fun _ => ⟨exec_oneShot_of_zero rfl, fun h0 =>
    ⟨exec_div1F_exact h0, (congrArg Prod.fst (applyFull_solve h0 _ _)).symm⟩⟩⟩

/-- Settles O43: the exact remainder, which is what the solver and the full applicator give. -/
theorem oneShotModuloIsTheRemainder : Obligations.OneShotModuloIsTheRemainder :=
  ⟨by decide, by decide, fun _ => ⟨exec_oneShot_of_zero rfl, fun h0 =>
    ⟨exec_mod1_exact h0, remainderOf_lt h0 _, (congrArg Prod.snd (applyFull_solve h0 _ _)).symm⟩⟩⟩

/-- Settles O44: both exact results, which are what the solver and the full applicator give. -/
theorem oneShotDivmodIsQuotientAndRemainder : Obligations.OneShotDivmodIsQuotientAndRemainder :=
  ⟨by decide, by decide, fun _ => ⟨exec_oneShot_of_zero rfl, fun h0 =>
    ⟨exec_divmod1_exact h0, (applyFull_solve h0 _ _).symm⟩⟩⟩

/-- Settles O45: in each row the one-shot command and its slot counterpart answer with the same exact results. -/
theorem oneShotEqualsConstructThenSlotCommand : Obligations.OneShotEqualsConstructThenSlotCommand := by
  intro s k n d x y hs hd row hrow
  simp only [List.mem_cons, List.not_mem_nil, or_false] at hrow
  rcases hrow with rfl | rfl | rfl | rfl
  · exact rsp_eq_after_construct hs hd x y (exec_div1F_exact hd) fun _ hn => exec_div_newDivider hd hn .full
  · exact rsp_eq_after_construct hs hd x y (exec_mod1_exact hd) fun _ => exec_mod_newDivider hd
  · exact rsp_eq_after_construct hs hd x y (exec_divmod1_exact hd) fun _ => exec_divmod_newDivider hd
  · exact rsp_eq_after_construct hs hd x y (exec_div1L_exact hd) fun _ hn => exec_div_newDivider hd hn .lean

end Sys2Proof.Machine

/-! PROOFS. The statements of 44_lean_variant.md: CONSTRUCT.L (R133), DIV1.L (R134), and that the lean applicator is
exact (R135). -/

namespace Sys2Proof.Machine

open Laws (IsSlotCommand)

/-! ### The carry of the lean applicator (R132, R135) -/

/-- The estimate is exact or one low, and the borrow that the carry inverts tells the two apart. -/
theorem MeetsDemands.trial_carry_iff {d m : Word} (n : Word) (hd : d ≠ 0#64) (h : MeetsDemands d m) :
    (add64 (candidateLean n (neg64 d) m) (neg64 d)).2 = true ↔ (estimate n m).toNat + 1 = n.toNat / d.toNat := by
  have hcases := h.estimate_cases n hd
  rw [candidateLean_neg64, add64_neg64_carry_eq_not_borrow hd, Bool.not_eq_true', ← Bool.not_eq_true,
    h.trial_borrow_iff n hd]
  omega

theorem MeetsDemands.applyLean_eq {d m : Word} (n : Word) (hd : d ≠ 0#64) (h : MeetsDemands d m) :
    applyLean n (neg64 d) m = quotientOf n d := by
  rw [applyLean_neg64 hd, h.applyFull_eq hd]

/-! ### DIV1.L (R134) -/

theorem applyLean_solve {d : Word} (hd : d ≠ 0#64) (n : Word) (v : Variant) :
    applyLean n (neg64 d) (solve v d) = quotientOf n d := by
  rw [solve_eq_magic, applyLean_magic hd]

/-- Undefined together at the divisor 0, and otherwise the same exact quotient. -/
theorem exec_div1L_eq_exec_div1F (s : State) : exec .div1L s = exec .div1F s := by
  by_cases h0 : s.operand .opb = 0#64
  · rw [exec_oneShot_of_zero rfl h0, exec_oneShot_of_zero rfl h0]
  · rw [exec_div1L_exact h0, exec_div1F_exact h0]

/-! ### The statements (R133 to R135) -/

/-- Settles O35: the preamble's statuses, and the two ways CONSTRUCT takes a free slot, here with the negated
divisor stored. -/
theorem constructLeanStoresTheNegatedDivisor : Obligations.ConstructLeanStoresTheNegatedDivisor :=
  ⟨fun _ hk => (IsSlotCommand.constructL.slotWord hk).symm, fun _ _ =>
    ⟨exec_of_nslots_le rfl, fun _ => exec_of_busy rfl rfl, construct_of_zero .lean, construct_of_free .lean⟩⟩

/-- Settles O42: the exact quotient, which is what the solver and the lean applicator give, as in DIV1.F. -/
theorem oneShotLeanDivideIsTheFloorQuotient : Obligations.OneShotLeanDivideIsTheFloorQuotient :=
  ⟨by decide, fun s => ⟨exec_oneShot_of_zero rfl, fun h0 =>
    ⟨exec_div1L_exact h0, (applyLean_solve h0 _ _).symm⟩, exec_div1L_eq_exec_div1F s⟩⟩

/-- Settles O52: the candidate is the full one and the carry the inverted borrow, so the lean quotient is the full,
exact one. -/
theorem leanApplicatorIsExactAndEqualsTheFullOne : Obligations.LeanApplicatorIsExactAndEqualsTheFullOne := by
  refine ⟨fun n d m hd hb hc => ?_, fun n d hd => applyLean_magic hd n⟩
  have h : MeetsDemands d m := ⟨hb, hc⟩
  have hcand := candidateLean_neg64 n d m
  exact ⟨h.applyLean_eq n hd, applyLean_neg64 hd n m, hcand, hcand ▸ h.candidateFull_toNat n,
    h.trial_carry_iff n hd, hcand ▸ add64_neg64_carry_eq_not_borrow hd _⟩

end Sys2Proof.Machine

/-! PROOFS. The statements of 60_exceptions.md: the error statuses (R140 to R145), what they have in common (R142),
their order (R148), and the undefined command (R146). -/

namespace Sys2Proof.Machine

/-! ### The causes of the statuses (R141 to R145) -/

/-- When a slot command that names slot `k` has each status: the causes as the status's own rule gives them, with no
order among them, and for OK what a command finds in its slot when it reaches its body (R100). -/
def StatusCause (i : Instr) (k : Nat) (s : State) : Status → Prop
  | .ok => isConstruct i = true ∧ s.slotAt k = some .uninitialized ∨
      isConstruct i = false ∧ ∃ d, s.slotAt k = some (.constructed d) ∧ (needsFullSlot i = true → d.var = .full)
  | .eIllegal => False
  | .eRange => s.nslots ≤ k
  | .eUninit => isConstruct i = false ∧ s.slotAt k = some .uninitialized
  | .eBusy => isConstruct i = true ∧ ∃ d, s.slotAt k = some (.constructed d)
  | .eNomod => needsFullSlot i = true ∧ ∃ d, s.slotAt k = some (.constructed d) ∧ d.var = .lean

/-- The causes shut each other out, so that the preamble has a status exactly when the status's own rule has it. -/
theorem preambleStatus_eq_some_iff (i : Instr) (k : Nat) (s : State) (e : Status) :
    preambleStatus i k s = some e ↔ StatusCause i k s e := by
  have hrange := s.slotAt_eq_none k
  rcases hs : s.slotAt k with _ | _ | d | _ <;> rw [hs] at hrange
  · cases e <;> simp [preambleStatus, StatusCause, hs, ← hrange]
  · cases hi : isConstruct i <;> cases e <;> simp [preambleStatus, StatusCause, hs, hi, ← hrange]
  · by_cases hf : needsFullSlot i = true
    · have hi := isConstruct_of_needsFullSlot hf
      cases hv : d.var <;> cases e <;> simp [preambleStatus, StatusCause, hs, hf, hi, hv, ← hrange]
    · cases hi : isConstruct i <;> cases e <;> simp [preambleStatus, StatusCause, hs, hf, hi, ← hrange]
  · cases e <;> simp [preambleStatus, StatusCause, hs, ← hrange]

/-- The preamble has no status exactly for a slot without a value. -/
theorem preambleStatus_eq_none_iff (i : Instr) (k : Nat) (s : State) :
    preambleStatus i k s = none ↔ s.slotAt k = some .noValue := by
  rcases hs : s.slotAt k with _ | _ | d | _ <;> simp [preambleStatus, hs]

/-! ### Kinds of commands by slot and divisor's port (R57, R100) -/

theorem isConstruct_iff {i : Instr} {k : Nat} :
    i.slot? = some k ∧ isConstruct i = true ↔ i = .constructF k ∨ i = .constructL k := by
  cases i <;> simp [Instr.slot?, isConstruct]

theorem mem_needsFullSlot_iff {i : Instr} {k : Nat} :
    i.slot? = some k ∧ needsFullSlot i = true ↔ i = .mod k ∨ i = .divmod k := by
  cases i <;> simp [Instr.slot?, needsFullSlot]

/-- The slot commands that need a Constructed slot: RELEASE and the reading ones (R100). -/
theorem mem_needsDivider_iff {i : Instr} {k : Nat} :
    i ∈ [Instr.release k, .getdiv k, .div k, .mod k, .divmod k] ↔ i.slot? = some k ∧ isConstruct i = false := by
  cases i <;> simp [Instr.slot?, isConstruct]

theorem exists_slot_of_isConstruct {i : Instr} (h : isConstruct i = true) : ∃ k, i.slot? = some k := by
  cases i with
  | constructF k | constructL k => exact ⟨k, rfl⟩
  | _ => nomatch h

theorem divisorPort_eq_none {i : Instr} {k : Nat} (hk : i.slot? = some k) (hi : isConstruct i = false) :
    divisorPort i = none := by
  cases i with
  | constructF | constructL => nomatch hi
  | div1F | div1L | mod1 | divmod1 => nomatch hk
  | release | getdiv | div | mod | divmod => rfl

theorem divisorPort_eq_opa_iff (i : Instr) : divisorPort i = some .opa ↔ isConstruct i = true := by
  cases i <;> simp [divisorPort, isConstruct]

theorem mem_oneShots_iff (i : Instr) : i ∈ [Instr.div1F, .div1L, .mod1, .divmod1] ↔ i.slot? = none := by
  cases i <;> simp [Instr.slot?]

theorem divisorPort_eq_opb_iff (i : Instr) : divisorPort i = some .opb ↔ i.slot? = none := by
  cases i <;> simp [divisorPort, Instr.slot?]

/-! ### How a command ends (R100, R142, R146) -/

section Ends
variable {i : Instr} {s : State}

/-- A command that no check holds back: of a slot command the preamble's status is OK (R100); a one-shot command has no
checks (R120). -/
def PassesChecks (i : Instr) (s : State) : Prop := ∀ k, i.slot? = some k → preambleStatus i k s = some .ok

/-- Every command finds a slot without a value, is held back by a check, or passes them all. -/
theorem checks_cases (i : Instr) (s : State) :
    (∃ k, i.slot? = some k ∧ s.slotAt k = some .noValue) ∨
    (∃ k e, i.slot? = some k ∧ preambleStatus i k s = some e ∧ e ≠ .ok) ∨
    PassesChecks i s := by
  cases hk : i.slot? with
  | none => exact .inr (.inr fun k h => by simp [hk] at h)
  | some k =>
    cases hp : preambleStatus i k s with
    | none => exact .inl ⟨k, rfl, (preambleStatus_eq_none_iff i k s).1 hp⟩
    | some e =>
      by_cases he : e = .ok
      · refine .inr (.inr fun j hj => ?_)
        cases hk.symm.trans hj
        rw [hp, he]
      · exact .inr (.inl ⟨k, e, rfl, hp, he⟩)

theorem afterChecks_of_error {α : Type} {c : Except Result α} {o : Result} (h : c = .error o) (body : α → Result) :
    afterChecks c body = o := by
  rw [h, afterChecks_error]

theorem exec_of_noValue {k : Nat} (hk : i.slot? = some k) (hs : s.slotAt k = some .noValue) :
    exec i s = .fault .divisorZero := by
  cases i <;> cases hk
  case constructF | constructL => exact afterChecks_of_error (checkFree_noValue hs) _
  case mod | divmod => exact afterChecks_of_error (checkFullDivider_noValue hs) _
  case release | getdiv | div => exact afterChecks_of_error (checkDivider_noValue hs) _

section Passing
variable (h : PassesChecks i s)
include h

/-- What CONSTRUCT finds past its checks. -/
theorem PassesChecks.free {k : Nat} (hk : i.slot? = some k) (hi : isConstruct i = true) :
    s.slotAt k = some .uninitialized := by
  simpa [StatusCause, hi] using (preambleStatus_eq_some_iff i k s .ok).1 (h k hk)

/-- What the other slot commands find past their checks. -/
theorem PassesChecks.divider {k : Nat} (hk : i.slot? = some k) (hi : isConstruct i = false) :
    ∃ d, s.slotAt k = some (.constructed d) ∧ (needsFullSlot i = true → d.var = .full) := by
  simpa [StatusCause, hi] using (preambleStatus_eq_some_iff i k s .ok).1 (h k hk)

theorem PassesChecks.exec_of_zero {p : OperandPort} (hp : divisorPort i = some p) (h0 : s.operand p = 0#64) :
    exec i s = .fault .divisorZero := by
  cases p with
  | opb => exact exec_oneShot_of_zero hp h0
  | opa =>
    cases i with
    | constructF k => exact construct_of_zero .full (h.free rfl rfl) h0
    | constructL k => exact construct_of_zero .lean (h.free rfl rfl) h0
    | _ => nomatch hp

theorem PassesChecks.exec_ok (h0 : ∀ p, divisorPort i = some p → s.operand p ≠ 0#64) :
    ∃ t r, exec i s = .next t ∧ t.rsp = some r ∧ r.status = .ok := by
  cases i with
  | constructF k => exact ⟨_, _, construct_of_free .full (h.free rfl rfl) (h0 _ rfl), rfl, rfl⟩
  | constructL k => exact ⟨_, _, construct_of_free .lean (h.free rfl rfl) (h0 _ rfl), rfl, rfl⟩
  | release k =>
    obtain ⟨d, hs, -⟩ := h.divider rfl rfl
    exact ⟨_, _, exec_release_ok hs, rfl, rfl⟩
  | getdiv k =>
    obtain ⟨d, hs, -⟩ := h.divider rfl rfl
    exact ⟨_, _, exec_getdiv_ok hs, rfl, rfl⟩
  | div k =>
    obtain ⟨d, hs, -⟩ := h.divider rfl rfl
    exact ⟨_, _, exec_div_ok hs, rfl, rfl⟩
  | mod k =>
    obtain ⟨d, hs, hv⟩ := h.divider rfl rfl
    exact ⟨_, _, exec_mod_ok hs (hv rfl), rfl, rfl⟩
  | divmod k =>
    obtain ⟨d, hs, hv⟩ := h.divider rfl rfl
    exact ⟨_, _, exec_divmod_ok hs (hv rfl), rfl, rfl⟩
  | div1F => exact ⟨_, _, exec_div1F_exact (h0 _ rfl), rfl, rfl⟩
  | div1L => exact ⟨_, _, exec_div1L_exact (h0 _ rfl), rfl, rfl⟩
  | mod1 => exact ⟨_, _, exec_mod1_exact (h0 _ rfl), rfl, rfl⟩
  | divmod1 => exact ⟨_, _, exec_divmod1_exact (h0 _ rfl), rfl, rfl⟩

/-- Past its checks a command is undefined, by a divisor of 0, or answers OK (R146, R148). -/
theorem PassesChecks.exec_cases :
    (∃ p, divisorPort i = some p ∧ s.operand p = 0#64 ∧ exec i s = .fault .divisorZero) ∨
    ∃ t r, exec i s = .next t ∧ t.rsp = some r ∧ r.status = .ok := by
  by_cases h0 : ∃ p, divisorPort i = some p ∧ s.operand p = 0#64
  · obtain ⟨p, hp, hp0⟩ := h0
    exact .inl ⟨p, hp, hp0, h.exec_of_zero hp hp0⟩
  · exact .inr (h.exec_ok fun p hp hp0 => h0 ⟨p, hp, hp0⟩)

end Passing

/-- An error status in the response is the preamble's. -/
theorem preambleStatus_of_exec {t : State} {r : Response} (he : exec i s = .next t) (hr : t.rsp = some r)
    (hne : r.status ≠ .ok) : ∃ k, i.slot? = some k ∧ preambleStatus i k s = some r.status := by
  rcases checks_cases i s with ⟨k, hk, hs⟩ | ⟨k, e, hk, hp, hok⟩ | hpass
  · rw [exec_of_noValue hk hs] at he
    contradiction
  · rw [exec_of_preambleStatus hp hok hk] at he
    cases he
    cases hr
    exact ⟨k, hk, hp⟩
  · rcases hpass.exec_cases with ⟨p, -, -, hf⟩ | ⟨t', r', hnext, hr', hok⟩
    · rw [hf] at he
      contradiction
    · cases hnext.symm.trans he
      cases hr'.symm.trans hr
      exact absurd hok hne

/-- A command answers an error status exactly when the preamble has it, and then changes nothing but the response. -/
theorem exec_eq_raise_iff {e : Status} (he : e ≠ .ok) :
    exec i s = .next (s.offer ⟨e, none, none⟩) ↔ ∃ k, i.slot? = some k ∧ StatusCause i k s e := by
  simp only [← preambleStatus_eq_some_iff]
  constructor
  · intro h
    exact preambleStatus_of_exec h rfl he
  · rintro ⟨k, hk, hp⟩
    exact exec_of_preambleStatus hp he hk

/-- A command is undefined only by a slot without a value, or past its checks by a divisor of 0 (R146). -/
theorem exec_fault_cases {f : Fault} (hf : exec i s = .fault f) :
    (∃ k, i.slot? = some k ∧ s.slotAt k = some .noValue) ∨
    PassesChecks i s ∧ ∃ p, divisorPort i = some p ∧ s.operand p = 0#64 := by
  rcases checks_cases i s with hnone | ⟨k, e, hk, hp, hok⟩ | hpass
  · exact .inl hnone
  · rw [exec_of_preambleStatus hp hok hk] at hf
    contradiction
  · rcases hpass.exec_cases with ⟨p, hp, h0, -⟩ | ⟨t, r, hnext, -⟩
    · exact .inr ⟨hpass, p, hp, h0⟩
    · rw [hnext] at hf
      contradiction

end Ends

/-! ### E_RANGE, E_UNINIT, E_BUSY, E_NOMOD (R141 to R145) -/

/-- Settles O21: an error is the preamble's, which looks at the slot alone. -/
theorem errorsChangeNothingAndReadNoOperand : Obligations.ErrorsChangeNothingAndReadNoOperand := by
  rintro i s t ⟨e, a, b⟩ he hr hne
  obtain ⟨k, hk, hp⟩ := preambleStatus_of_exec he hr hne
  cases (exec_of_preambleStatus hp hne hk).symm.trans he
  cases hr
  exact ⟨rfl, rfl, rfl, fun a b => exec_of_preambleStatus (s := s.withOperands a b) hp hne hk⟩

/-- Settles O22: only a slot command has a slot index, and 4 bits hold none past 15. -/
theorem rangeStatusExactlyPastNslots : Obligations.RangeStatusExactlyPastNslots := by
  have hiff (i : Instr) (s : State) :
      exec i s = .next (s.offer ⟨.eRange, none, none⟩) ↔ ∃ k, i.slot? = some k ∧ s.nslots ≤ k :=
    exec_eq_raise_iff (by decide)
  refine ⟨hiff, fun i s t he hr => ?_, fun i s hwf hn he => ?_, fun i hi s he => ?_, by decide, fun s hn => ?_⟩
  · obtain ⟨k, hk, hp⟩ := preambleStatus_of_exec he hr nofun
    exact exec_of_preambleStatus hp nofun hk
  · obtain ⟨k, hk, hle⟩ := (hiff i s).1 he
    have hlt := (Laws.wellFormed_iff i).1 hwf k hk
    omega
  · obtain ⟨k, hk, -⟩ := (hiff i s).1 he
    rw [(mem_oneShots_iff i).1 hi] at hk
    contradiction
  · exact exec_of_nslots_le rfl hn.le

/-- Settles O23: the cause of E_UNINIT, which every slot has after reset. -/
theorem uninitStatusExactlyOnEmptySlots : Obligations.UninitStatusExactlyOnEmptySlots := by
  refine ⟨fun i s => ?_, by decide, fun n b hn => ?_⟩
  · simp only [exec_eq_raise_iff (e := .eUninit) nofun, StatusCause, mem_needsDivider_iff, and_assoc]
  · exact exec_of_uninitialized rfl rfl (State.resetFor_slotAt hn)

/-- Settles O24: the cause of E_BUSY, which no operand is part of, and which a CONSTRUCT that answered OK leaves. -/
theorem busyStatusExactlyOnConstructedSlots : Obligations.BusyStatusExactlyOnConstructedSlots := by
  refine ⟨fun i s => ?_, fun s k d a b hs => ⟨exec_of_busy rfl rfl hs, exec_of_busy rfl rfl hs, hs⟩,
    by decide, fun s b hs => ?_⟩
  · simp only [exec_eq_raise_iff (e := .eBusy) nofun, StatusCause, ← isConstruct_iff, exists_and_left, and_assoc]
  · have hstored := s.setSlot_slotAt_self 3 (.constructed (newDivider .full 10#64)) (s.slotAt_lt 3 _ hs)
    have h10 : (10#64 : Word) ≠ 0#64 := by decide
    exact ⟨_, newDivider .full 10#64, _, construct_of_free .full hs h10, rfl, hstored, rfl,
      newDivider_divisor .full _, exec_of_busy rfl rfl hstored, rfl, hstored⟩

/-- Settles O25: the cause of E_NOMOD, which a CONSTRUCT.L that answered OK leaves. -/
theorem nomodStatusExactlyOnLeanSlots : Obligations.NomodStatusExactlyOnLeanSlots := by
  refine ⟨fun i s => ?_, by decide, fun s b hs => ?_⟩
  · simp only [exec_eq_raise_iff (e := .eNomod) nofun, StatusCause, ← mem_needsFullSlot_iff, exists_and_left,
      and_assoc]
  · have hstored := s.setSlot_slotAt_self 1 (.constructed (newDivider .lean 0x0000000100000000#64))
      (s.slotAt_lt 1 _ hs)
    have hne : (0x0000000100000000#64 : Word) ≠ 0#64 := by decide
    exact ⟨_, construct_of_free .lean hs hne, rfl, exec_of_lean rfl rfl hstored rfl⟩

/-! ### A step that accepts a command (R50) -/

section Accepted
variable {s u : State} {w : CmdWord} {i : Instr} (hm : s.moment = .accepted w) (hd : decode w = .command i)
include hm hd

theorem step_of_accepted_next (he : exec i s = .next u) : step s = .next u.hostMoves := by
  rw [step_of_accepted_command hm hd, he]
  rfl

theorem step_of_accepted_fault {f : Fault} (he : exec i s = .fault f) :
    step s = .next (s.recordFault f).hostMoves := by
  rw [step_of_accepted_command hm hd, he]
  rfl

/-- A command that only answers leaves the slots as they are. -/
theorem step_of_accepted_offer {r : Response} (he : exec i s = .next (s.offer r)) :
    ∃ t, step s = .next t ∧ t.slots = s.slots ∧ t.rsp = some r :=
  ⟨_, step_of_accepted_next hm hd he, by simp, by simp⟩

end Accepted

/-! ### The undefined command (R146) -/

/-- Settles O18: of the commands with a divisor only CONSTRUCT has a check, and it passes on an Uninitialized slot. -/
theorem faultExactlyOnDivisorZero : Obligations.FaultExactlyOnDivisorZero := by
  refine ⟨fun i s f => ⟨fun hf => ?_, ?_⟩, exec_ne_refused, fun i s k f hs hi hf => ?_⟩
  · rcases exec_fault_cases hf with hnone | ⟨hpass, p, hp, h0⟩
    · exact .inr (.inr hnone)
    · cases p with
      | opb => exact .inr (.inl ⟨(mem_oneShots_iff i).2 ((divisorPort_eq_opb_iff i).1 hp), h0⟩)
      | opa =>
        have hi := (divisorPort_eq_opa_iff i).1 hp
        obtain ⟨k, hk⟩ := exists_slot_of_isConstruct hi
        exact .inl ⟨k, isConstruct_iff.1 ⟨hk, hi⟩, hpass.free hk hi, h0⟩
  · cases f
    rintro (⟨k, rfl | rfl, hs, h0⟩ | ⟨hi, h0⟩ | ⟨k, hk, hs⟩)
    · exact construct_of_zero .full hs h0
    · exact construct_of_zero .lean hs h0
    · exact exec_oneShot_of_zero ((divisorPort_eq_opb_iff i).2 ((mem_oneShots_iff i).1 hi)) h0
    · exact exec_of_noValue hk hs
  · obtain ⟨hk, hconstruct⟩ := mem_needsDivider_iff.1 hi
    rcases exec_fault_cases hf with ⟨j, hj, hnone⟩ | ⟨-, p, hp, -⟩
    · cases hk.symm.trans hj
      exact hs hnone
    · rw [divisorPort_eq_none hk hconstruct] at hp
      contradiction

/-- A handshake output has no value while a fault is recorded (R146). -/
theorem State.handshake_of_fault {s : State} {f : Fault} (hrst : s.pins.rst = false) (hf : s.fault = some f)
    (v : Bool) : s.handshake v = none := by
  simp [State.handshake, hrst, hf]

/-- While a fault is recorded no output has a value (R146). -/
theorem State.outputs_of_fault {s : State} {f : Fault} (hrst : s.pins.rst = false) (hf : s.fault = some f) :
    s.cmdReady = none ∧ s.rspValid = none ∧ s.rspStatus = none ∧ s.rspRes0 = none ∧ s.rspRes1 = none := by
  have hnone (v : Bool) : s.handshake v = none := State.handshake_of_fault hrst hf v
  have hoff : s.offered = none := State.offered_of_not_valid (by simp [State.rspValid, hnone])
  exact ⟨hnone _, hnone _, by simp [State.rspStatus, hoff], by simp [State.rspRes0, hoff],
    by simp [State.rspRes1, hoff]⟩

theorem State.cmdReady_ne_of_fault {s : State} (hf : s.fault.isSome = true) : s.cmdReady ≠ some true := by
  rw [Ne, State.cmdReady_eq_true_iff]
  rintro ⟨-, hnone, -⟩
  simp [hnone] at hf

/-- While a fault is recorded a step accepts nothing, and only reset has an effect (R146). -/
theorem step_of_fault {s : State} (hf : s.fault.isSome = true) :
    step s = .next (if s.pins.rst = true then s.applyReset else s).hostMoves := by
  rw [step_of_not_accepted fun hready => absurd hready (State.cmdReady_ne_of_fault hf), State.afterIdle,
    if_neg (c := s.fault = none ∧ _) fun h => by simp [h] at hf]

theorem State.applyReset_slots_eq_resetFor (s : State) : s.applyReset.slots = (State.resetFor s.nslots).slots :=
  List.map_const' ..

theorem State.recordFault_slotAt_of_lt {s : State} {k : Nat} (hk : k < s.nslots) (f : Fault) :
    (s.recordFault f).slotAt k = some .noValue := by
  rw [State.recordFault_slotAt, State.slotAt, List.getElem?_eq_getElem hk, Option.map_some]

/-- While a fault is recorded no slot has a value. -/
theorem State.Inv.slotAt_of_fault {s : State} {f : Fault} {k : Nat} (h : s.Inv) (hf : s.fault = some f)
    (hk : k < s.nslots) : s.slotAt k = some .noValue := by
  obtain ⟨hnone, -⟩ := h.valueless f hf
  rw [State.slotAt, List.getElem?_eq_getElem hk, hnone _ (List.getElem_mem hk)]

/-- Every step goes on: an accepted word by `step_of_accepted`, any other moment by `step_of_not_accepted`. -/
theorem step_goes_on (s : State) : ∃ t, step s = .next t := by
  by_cases hm : ∃ w, s.moment = .accepted w
  · obtain ⟨w, hw⟩ := hm
    obtain ⟨t, ht, -⟩ := step_of_accepted hw
    exact ⟨t, ht⟩
  · refine ⟨_, step_of_not_accepted fun hready => Bool.eq_false_of_not_eq_true fun hvalid => hm ?_⟩
    exact ⟨_, (moment_accepted_iff_ready s _).2 ⟨hvalid, hready, rfl⟩⟩

/-- Settles O19: the recorded fault, the outputs and the steps while it is recorded, and the reset that clears it. -/
theorem undefinedCommandLastsUntilReset : Obligations.UndefinedCommandLastsUntilReset := by
  refine ⟨fun s i f hm hd he => ?_, fun s p f hinv hf hrst => ?_, fun s t hf ht => ?_, step_goes_on⟩
  · exact ⟨_, step_of_accepted_fault hm hd he, by simp, by simp, by simp, fun k hk => by
      rw [State.hostMoves_slotAt, State.recordFault_slotAt_of_lt hk]⟩
  · have hstep : step { s with pins := p } = .next ({ s with pins := p } : State).hostMoves := by
      rw [step_of_fault (by simp [hf]), if_neg (by simp [hrst])]
    obtain ⟨hready, hvalid, hstatus, hres0, hres1⟩ := State.outputs_of_fault (s := { s with pins := p }) hrst hf
    obtain ⟨-, hrsp⟩ := hinv.valueless f hf
    refine ⟨hready, hvalid, hstatus, hres0, hres1, _, hstep, by simpa using hf, by simpa using hrsp,
      State.hostMoves_nslots _, fun k hk => ?_⟩
    rw [State.hostMoves_slotAt]
    exact hinv.slotAt_of_fault hf hk
  · rw [step_of_fault hf] at ht
    obtain rfl := Host.Outcome.next.inj ht
    cases hrst : s.pins.rst with
    | true =>
      simp only [if_true, State.hostMoves_slots, State.hostMoves_rsp, State.hostMoves_fault]
      exact ⟨by simp, fun _ => ⟨s.applyReset_slots_eq_resetFor, rfl⟩⟩
    | false => simpa using Option.isSome_iff_ne_none.1 hf

/-! ### The order of the statuses (R148), E_ILLEGAL first (R140) -/

/-- Settles O20: each status from its cause, and past the checks OK or the undefined command. -/
theorem statusesComeInTheirPriority : Obligations.StatusesComeInTheirPriority := by
  intro s w hm
  refine ⟨fun why hd => ?_, fun i k hd hk =>
    ⟨fun hle => ?_, fun d hs hi => ?_, fun hs hi => ?_, fun d hs hi hv => ?_⟩, fun i hd hpass => ?_⟩
  · exact ⟨_, step_of_accepted_illegal hm hd, by simp, by simp⟩
  · exact step_of_accepted_offer hm hd (exec_of_nslots_le hk hle)
  · exact step_of_accepted_offer hm hd (exec_of_busy hk hi hs)
  · exact step_of_accepted_offer hm hd (exec_of_uninitialized hk hi hs)
  · exact step_of_accepted_offer hm hd (exec_of_lean hk hi hs hv)
  · rcases PassesChecks.exec_cases hpass with ⟨p, hp, h0, hf⟩ | ⟨t, r, he, hr, hok⟩
    · exact .inr ⟨p, _, hp, h0, hf, step_of_accepted_fault hm hd hf, by simp⟩
    · exact .inl ⟨_, r, step_of_accepted_next hm hd he, by simpa using hr, hok⟩

/-- No command answers E_ILLEGAL: it is no status of the preamble. -/
theorem exec_rsp_ne_eIllegal {i : Instr} {s t : State} (h : exec i s = .next t) :
    t.rsp ≠ some ⟨.eIllegal, none, none⟩ := by
  intro hr
  obtain ⟨k, -, hp⟩ := preambleStatus_of_exec h hr nofun
  exact (preambleStatus_eq_some_iff i k s .eIllegal).1 hp

/-- Settles O5: the illegal words are answered before exec is called, and exec never answers E_ILLEGAL. -/
theorem illegalStatusComesFromTheWordAlone : Obligations.IllegalStatusComesFromTheWordAlone := by
  refine ⟨fun s t w hm ht => ⟨fun hr => ?_, fun ⟨why, hd⟩ => ?_⟩, fun w hw s hm => ?_⟩
  · cases hd : decode w with
    | illegal why => exact ⟨why, rfl⟩
    | command i =>
      cases he : exec i s with
      | next u =>
        cases (step_of_accepted_next hm hd he).symm.trans ht
        exact absurd (by simpa using hr) (exec_rsp_ne_eIllegal he)
      | fault f =>
        cases (step_of_accepted_fault hm hd he).symm.trans ht
        simp at hr
      | refused why => exact absurd he (exec_ne_refused i s why)
  · cases (step_of_accepted_illegal hm hd).symm.trans ht
    simp
  · have hreason : illegalReason w ≠ none := by
      simp only [List.mem_cons, List.not_mem_nil, or_false] at hw
      rcases hw with rfl | rfl | rfl | rfl | rfl | rfl | rfl <;> decide
    obtain ⟨why, hd⟩ := (Laws.exists_illegal_iff w).2 fun h => hreason ((Laws.exists_command_iff w).1 h)
    exact ⟨_, step_of_accepted_illegal hm hd, by simp⟩

end Sys2Proof.Machine

/-! PROOFS. The statements of 70_reset_and_hazards.md: the reset event (R160, R161) and the run under a host that keeps
its one duty (R166). -/

namespace Sys2Proof.Machine

/-! ### The reset event (R160, R161) -/

/-- In reset the FDC accepts nothing, so that a step is the reset event alone. -/
theorem step_of_rst {s : State} (hrst : s.pins.rst = true) : step s = .next s.applyReset.hostMoves := by
  have hready : s.cmdReady = some false := State.handshake_of_rst hrst _
  rw [step_of_not_accepted (by simp [hready]), State.afterIdle, if_pos hrst]

theorem State.applyReset_slotAt_of_lt {s : State} {k : Nat} (hk : k < s.nslots) :
    s.applyReset.slotAt k = some .uninitialized := by
  rw [State.slotAt, s.applyReset_slots_eq_resetFor]
  exact State.resetFor_slotAt hk

/-- Settles O10: the outputs in reset, and the fields of the state after the reset event. -/
theorem resetAbandonsTheCommandInFlight : Obligations.ResetAbandonsTheCommandInFlight := by
  intro s hrst
  refine ⟨State.handshake_of_rst hrst _, State.handshake_of_rst hrst _, _, step_of_rst hrst, by simp, by simp, by simp,
    fun k hk => ?_, fun hreleased => ?_⟩
  · rw [State.hostMoves_slotAt, State.applyReset_slotAt_of_lt hk]
  · exact (State.cmdReady_eq_true_iff _).2 ⟨hreleased, by simp, by simp⟩

/-! ### The host's side of a step (R166) -/

/-- Only the host's own move changes its pins and its script. -/
theorem step_next_host {s t : State} (h : step s = .next t) :
    ∃ u : State, t = u.hostMoves ∧ u.pins = s.pins ∧ u.script = s.script := by
  obtain ⟨u, rfl, hu⟩ := step_next_cases h
  refine ⟨u, rfl, ?_⟩
  rcases hu with ⟨-, rfl⟩ | ⟨-, rfl⟩ | ⟨-, rfl⟩ | ⟨w, why, -, -, rfl⟩ | ⟨w, i, -, -, he⟩ | ⟨w, i, f, -, -, -, rfl⟩
  · exact ⟨rfl, rfl⟩
  · exact ⟨rfl, rfl⟩
  · exact ⟨rfl, rfl⟩
  · exact ⟨rfl, rfl⟩
  · obtain ⟨hpins, hscript, -⟩ := exec_next_frame he
    exact ⟨hpins, hscript⟩
  · exact ⟨rfl, rfl⟩

/-- A host that presents no command keeps its duty. -/
theorem HostPins.quiet_dutiful (p : HostPins) : p.quiet.Dutiful := nofun

/-- The next moment is the script's first, or past its end a quiet one. -/
theorem State.HostDutiful.hostMoves {s : State} (h : s.HostDutiful) : s.hostMoves.HostDutiful := by
  rcases hs : s.script with _ | ⟨p, later⟩
  · simpa [State.HostDutiful, State.hostMoves, hs] using s.pins.quiet_dutiful
  · intro q hq
    refine h q (List.mem_cons_of_mem _ ?_)
    simpa [State.hostMoves, hs] using hq

theorem State.HostDutiful.step_next {s t : State} (hduty : s.HostDutiful) (h : step s = .next t) : t.HostDutiful := by
  obtain ⟨u, rfl, hpins, hscript⟩ := step_next_host h
  refine State.HostDutiful.hostMoves ?_
  rwa [State.HostDutiful, hpins, hscript]

theorem HostPins.Dutiful.operand_ne {s : State} {i : Instr} {p : OperandPort} (hduty : s.pins.Dutiful)
    (hvalid : s.pins.cmdValid = true) (hd : decode s.pins.cmdWord = .command i) (hp : divisorPort i = some p) :
    s.operand p ≠ 0#64 := by
  obtain ⟨hopa, hopb⟩ := hduty hvalid i hd
  cases p with
  | opa => exact hopa hp
  | opb => exact hopb hp

/-! ### No undefined command under a dutiful host (R146, R166) -/

/-- The two causes of a fault are a slot without a value, which the invariant excludes, and a divisor of 0, which the
host's duty does. -/
theorem State.Inv.exec_ne_fault {s : State} {i : Instr} {w : CmdWord} (hinv : s.Inv) (hduty : s.pins.Dutiful)
    (hm : s.moment = .accepted w) (hd : decode w = .command i) (f : Fault) : exec i s ≠ .fault f := by
  obtain ⟨-, hf, -, hvalid, rfl⟩ := (moment_accepted_iff s w).1 hm
  intro he
  rcases exec_fault_cases he with ⟨k, -, hs⟩ | ⟨-, p, hp, h0⟩
  · exact hinv.valued hf _ (s.slotAt_mem k _ hs) rfl
  · exact hduty.operand_ne hvalid hd hp h0

theorem State.Inv.step_next_fault {s t : State} (hinv : s.Inv) (hf : s.fault = none) (hduty : s.pins.Dutiful)
    (h : step s = .next t) : t.fault = none := by
  obtain ⟨u, rfl, hu⟩ := step_next_cases h
  rw [State.hostMoves_fault]
  rcases hu with ⟨-, rfl⟩ | ⟨-, rfl⟩ | ⟨-, rfl⟩ | ⟨w, why, -, -, rfl⟩ | ⟨w, i, -, -, he⟩ | ⟨w, i, f, hm, hd, he, -⟩
  · exact s.applyReset_fault
  · exact hf
  · exact hf
  · exact hf
  · obtain ⟨-, -, hkeep, -⟩ := exec_next_frame he
    exact hkeep.trans hf
  · exact absurd he (hinv.exec_ne_fault hduty hm hd f)

/-! ### Runs of any length -/

theorem run_succ_of_step {M : Host.Core} {s t : M.State} (h : M.step s = .next t) (k : Nat) :
    M.run (k + 1) s = M.run k t := by
  rw [Host.Core.run, h]

/-- What every step goes on from and keeps holds along every run. -/
theorem run_goes_on {P : State → Prop} (hstep : ∀ s, P s → ∃ t, step s = .next t ∧ P t) (k : Nat) :
    ∀ s, P s → ∃ t : State, Host.Core.run Sys2Proof.core k s = .next t ∧ P t := by
  induction k with
  | zero => exact fun s hs => ⟨s, rfl, hs⟩
  | succ k ih =>
    intro s hs
    obtain ⟨t, ht, hPt⟩ := hstep s hs
    rw [run_succ_of_step (M := Sys2Proof.core) ht]
    exact ih t hPt

/-- A FDC of `n` slots in a good state with no fault recorded, under a host that keeps its duty (R166). -/
def State.Served (n : Nat) (s : State) : Prop := s.Inv ∧ s.fault = none ∧ s.HostDutiful ∧ s.nslots = n

theorem State.Served.exists_step {n : Nat} {s : State} (h : s.Served n) : ∃ t, step s = .next t ∧ t.Served n := by
  obtain ⟨hinv, hf, hduty, hn⟩ := h
  obtain ⟨t, ht⟩ := step_goes_on s
  exact ⟨t, ht, everyStepKeepsTheInvariant s t hinv ht, hinv.step_next_fault hf (hduty _ List.mem_cons_self) ht,
    hduty.step_next ht, (step_next_nslots ht).trans hn⟩

/-- Settles O17: a served FDC goes on as a served one, at every step and so along every run. -/
theorem dutifulHostNeverSeesAStop : Obligations.DutifulHostNeverSeesAStop :=
  fun k s hinv hf hduty => run_goes_on (fun _ => State.Served.exists_step) k s ⟨hinv, hf, hduty, rfl⟩

end Sys2Proof.Machine
